-- ==== Sys2Proof/Word.lean ====
section
/-!
DEFINITION. The bit vectors of the block (spec/00_scope.md R5 to R8).

Bit 0 of a vector is its least significant bit (R6), `BitVec.toNat` is the `u` and `BitVec.toInt` the `s` of R7,
and `a ++ b` is the concatenation `{a, b}` with `a` in the high bits (R7).
-/

namespace Sys2Proof

/-- A byte register, or the byte on `din`: `BYTE_W = 8` bits (R5, R15, R16). -/
abbrev Byte := BitVec 8

/-- A half of the frame word, `h` or `l` (R21). -/
abbrev Half := BitVec 16

/-- The frame word `W`: `FRAME_W = 32` bits named D31 down to D0, and `Dn` is bit `n` (R5, R6, R33). -/
abbrev FrameWord := BitVec 32

/-- A command word `{rst, start, bv, din[7:0]}` of 11 bits (R47). -/
abbrev CmdWord := BitVec 11

end Sys2Proof
end

