-- ==== Sys2Proof/Config.lean ====
section
/-!
DEFINITION. What an implementation fixes (the parameters of spec/00_scope.md R5) and the free values of the model.
-/

namespace Sys2Proof.Config

/-- `FRAME_BYTES`: bytes per frame (R5). -/
abbrev frameBytes : Nat := 4

/-- `BYTE_W`: bits per byte, the width of `Byte` (R5). -/
abbrev byteW : Nat := 8

/-- `FRAME_W`: bits per frame, the width of `FrameWord` (R5). -/
abbrev frameW : Nat := 32

/-- `TC_BITS`: the width of the thermocouple field (R5). -/
abbrev tcBits : Nat := 14

/-- `TC_LSB`: the lowest frame bit of the thermocouple field (R5). -/
abbrev tcLsb : Nat := 18

/-- `INT_BITS`: the width of the internal field (R5). -/
abbrev intBits : Nat := 12

/-- `INT_LSB`: the lowest frame bit of the internal field (R5). -/
abbrev intLsb : Nat := 4

/-- `TC_SHIFT`: the arithmetic right shift of the upper half (R5, R64). -/
abbrev tcShift : Nat := 2

/-- `INT_SHIFT`: the arithmetic right shift of the lower half (R5, R65). -/
abbrev intShift : Nat := 4

/-- `TC_FRAC`: fraction bits of the thermocouple value in degrees Celsius (R5, R84). -/
abbrev tcFrac : Nat := 2

/-- `INT_FRAC`: fraction bits of the internal value in degrees Celsius (R5, R85). -/
abbrev intFrac : Nat := 4

/-- The parameters the spec marks OPEN (R5). Whatever depends on one of them takes it as an argument: the ports take
`outW` (assumption 7), and what is asked of the Bus Reader takes the other two (assumption 8). -/
structure OpenParams where
  /-- `OUT_W`: the width of the two temperature ports, any value of 14 or more (R73). -/
  outW : Nat
  /-- `SCLK_HZ`: the bus clock of the external Bus Reader, which no step of the block reads (R107, R123). -/
  sclkHz : Nat
  /-- `DEVICE_PATH`: the default device path of the external Bus Reader (R106). -/
  devicePath : String
  deriving DecidableEq, Repr

/-- The device path of this hardware. The source names none, so this constant has no body (R5, R106;
spec/91_not_in_source.md N10; assumption 8). -/
opaque defaultDevicePath : String

/-- The values this hardware takes for the OPEN parameters (R5). -/
def thisHardware : OpenParams where
  outW := 16
  sclkHz := 500000
  devicePath := defaultDevicePath

/-- FREE VALUE. The bytes that RESET leaves in the byte registers are unspecified (R11, R28, R114). This constant has
no body, so nothing can be proved of the bytes it gives; a RESET draws the next four of them (assumption 3). -/
opaque freeByte : Nat → Byte

end Sys2Proof.Config
end

