-- ==== Sys2Proof/Syntax.lean ====
section
/-!
DEFINITION. The fifteen operations of spec/opcode_table.json, one constructor for each row (spec/30_encoding.md R53).

The four CMD operations are the commands of layer L1, one per step. The eleven FRAME operations have no operand of their
own: all of them read the frame that the four byte registers hold (R17, R32, R52), so they are the host's observations of
the outputs.
-/

namespace Sys2Proof

/-- The operations of the block, in the order of spec/opcode_table.json. -/
inductive Instr where
  /-- RESET: initial state (R114). -/
  | reset
  /-- START: frame boundary (R90). -/
  | start
  /-- BYTE: one byte of the frame, on `din` (R91, R92). -/
  | byte (din : Byte)
  /-- IDLE: nothing asked (R93). -/
  | idle
  /-- DECODE: the whole result record (R59). -/
  | decode
  /-- TCRAW: the thermocouple field, sign-extended (R64). -/
  | tcraw
  /-- INTRAW: the internal field, sign-extended (R65). -/
  | intraw
  /-- FD16: frame bit D16 as received (R74). -/
  | fd16
  /-- SCV: short-circuit to supply, D2 (R75). -/
  | scv
  /-- SCG: short-circuit to ground, D1 (R76). -/
  | scg
  /-- OC: open circuit, D0 (R77). -/
  | oc
  /-- FAULT: the aggregate of D2, D1, D0 (R78). -/
  | fault
  /-- SFAULT: the condition of the host's fault gate (R79). -/
  | sfault
  /-- TCDEG: the thermocouple temperature in degrees Celsius (R84). -/
  | tcdeg
  /-- INTDEG: the internal temperature in degrees Celsius (R85). -/
  | intdeg
  deriving DecidableEq, Repr

end Sys2Proof
end

