-- ==== Sys2Proof/WellFormed.lean ====
section
/-!
DEFINITION. The checks the spec puts on what is written down outside the state.

No instruction can be ill-formed: the one operand, `din`, is any byte (R48, R55, R91). What the spec does bound is the
length of a frame given as a list of bytes (R36), the range of a read of the frame buffer (R10), the width of the
temperature ports (R73), the 11 bits of a command word (R47), and the integers that have an encoding as a field (R69).
-/

namespace Sys2Proof

/-- Every operation is well-formed: "There are no illegal encodings" (R55), and BYTE takes all 256 values (R91). -/
def Instr.wellFormed : Instr → Bool
  | .reset => true
  | .start => true
  | .byte _ => true
  | .idle => true
  | .decode => true
  | .tcraw => true
  | .intraw => true
  | .fd16 => true
  | .scv => true
  | .scg => true
  | .oc => true
  | .fault => true
  | .sfault => true
  | .tcdeg => true
  | .intdeg => true

/-- A RawFrame is "exactly 4 unsigned 8-bit values" (R36). -/
def rawFrameWellFormed (bytes : List Byte) : Bool :=
  bytes.length == Config.frameBytes

/-- `MemRead(a, n)` is defined only for `a + n <= 4` (R10). -/
def memReadWellFormed (a n : Nat) : Bool :=
  a + n ≤ Config.frameBytes

/-- `OUT_W` below 14 is not allowed (R73). -/
def outWidthWellFormed (w : Nat) : Bool :=
  14 ≤ w

/-- The OPEN parameters a block can be built with: `OUT_W` alone is bounded (R5, R73). -/
def openParamsWellFormed (p : Config.OpenParams) : Bool :=
  outWidthWellFormed p.outW

/-- A command word has 11 bits (R47). -/
def cmdWordWellFormed (w : Nat) : Bool :=
  w < 2048

/-- The integers a thermocouple field can hold (R67, R69). -/
def tcRawWellFormed (v : Int) : Bool :=
  -8192 ≤ v && v ≤ 8191

/-- The integers an internal field can hold (R67, R69). -/
def intRawWellFormed (v : Int) : Bool :=
  -2048 ≤ v && v ≤ 2047

end Sys2Proof
end

