-- ==== Sys2Proof/Decode.lean ====
section
/-!
DEFINITION. The two formats of spec/30_encoding.md, their decoder and their encoder.

The CMD format selects one of four commands from an 11-bit word (R47, R48). The FRAME format has no opcode field: all
eleven FRAME operations apply to every frame (R52), so what selects one of them is not a bit of the frame but the output
the host looks at (assumption 2).
-/

namespace Sys2Proof

/-- The outputs a host can look at, one for each FRAME row of spec/opcode_table.json (R52, R53). -/
inductive FrameOp where
  | decode | tcraw | intraw | fd16 | scv | scg | oc | fault | sfault | tcdeg | intdeg
  deriving DecidableEq, Repr

/-- What reaches the block from outside in one step of the model: the 11 bits on its input ports (R47), or the host's
observation of one output, for which the host sends nothing (R109, row "consume the result"; assumption 1). -/
inductive HostEvent where
  /-- The input ports carry this command word. -/
  | command (c : CmdWord)
  /-- The host looks at this output. -/
  | observe (op : FrameOp)
  deriving DecidableEq, Repr

/-- The all-zero word on the input ports: the canonical IDLE (R48). -/
def idleWord : CmdWord := 0x000#11

/-- The `rst` bit of a command word, `c[10]` (R47). -/
def rstBit (c : CmdWord) : Bool := c.getLsbD 10

/-- The `start` bit of a command word, `c[9]` (R47). -/
def startBit (c : CmdWord) : Bool := c.getLsbD 9

/-- The `bv` bit of a command word, `c[8]` (R47). -/
def bvBit (c : CmdWord) : Bool := c.getLsbD 8

/-- The byte on `din`, `c[7:0]` (R47). -/
def dinBits (c : CmdWord) : Byte := c.extractLsb' 0 8

/-- The command a word selects, by the fixed priority `rst` over `start` over `bv` (R48). Total: no word is illegal. -/
def decodeCommand (c : CmdWord) : Instr :=
  if rstBit c then .reset
  else if startBit c then .start
  else if bvBit c then .byte (dinBits c)
  else .idle

/-- The operation that looks at one output (R52, R53). -/
def decodeFrameOp : FrameOp → Instr
  | .decode => .decode
  | .tcraw => .tcraw
  | .intraw => .intraw
  | .fd16 => .fd16
  | .scv => .scv
  | .scg => .scg
  | .oc => .oc
  | .fault => .fault
  | .sfault => .sfault
  | .tcdeg => .tcdeg
  | .intdeg => .intdeg

/-- The operation that an event of the host asks for. Total (R48, R55). -/
def decodeEvent : HostEvent → Instr
  | .command c => decodeCommand c
  | .observe op => decodeFrameOp op

/-- The canonical word of a BYTE command, `0x100 + din` (R48). -/
def byteWord (din : Byte) : CmdWord := 0x1#3 ++ din

/-- The encoder: the canonical command word of a command, in which every don't-care bit is 0 (R48), and the output that a
FRAME operation looks at (R52). -/
def encode : Instr → HostEvent
  | .reset => .command 0x400#11
  | .start => .command 0x200#11
  | .byte din => .command (byteWord din)
  | .idle => .command idleWord
  | .decode => .observe .decode
  | .tcraw => .observe .tcraw
  | .intraw => .observe .intraw
  | .fd16 => .observe .fd16
  | .scv => .observe .scv
  | .scg => .observe .scg
  | .oc => .observe .oc
  | .fault => .observe .fault
  | .sfault => .observe .sfault
  | .tcdeg => .observe .tcdeg
  | .intdeg => .observe .intdeg

/-- A command word with its don't-care bits cleared (R48, last column of the table). -/
def canonicalWord (c : CmdWord) : CmdWord :=
  if rstBit c then 0x400#11
  else if startBit c then 0x200#11
  else if bvBit c then c
  else idleWord

/-- The pseudo-instruction FRAME: START and four BYTEs, byte 0 first (R58). -/
def framePseudo (b0 b1 b2 b3 : Byte) : List Instr :=
  [.start, .byte b0, .byte b1, .byte b2, .byte b3]

/-- The pseudo-instruction ABORT: another name for START (R58). -/
def abortPseudo : Instr := .start

/-- One field of the FRAME format: its name in R45 and its highest and lowest frame bit. -/
structure FrameField where
  name : String
  hi : Nat
  lo : Nat
  deriving DecidableEq, Repr

/-- The layout of a frame, every bit accounted for (R45). -/
def frameLayout : List FrameField :=
  [⟨"tc", 31, 18⟩, ⟨"rsv17", 17, 17⟩, ⟨"d16", 16, 16⟩, ⟨"int", 15, 4⟩, ⟨"rsv3", 3, 3⟩, ⟨"scv", 2, 2⟩, ⟨"scg", 1, 1⟩,
    ⟨"oc", 0, 0⟩]

/-- The frame bits an output depends on, as a mask over D31 to D0 (R62; the `fields` of spec/opcode_table.json, less the
two reserved bits that DECODE is given and does not read, R54). -/
def FrameOp.reads : FrameOp → FrameWord
  | .decode => 0xFFFDFFF7#32
  | .tcraw => 0xFFFC0000#32
  | .intraw => 0x0000FFF0#32
  | .fd16 => 0x00010000#32
  | .scv => 0x00000004#32
  | .scg => 0x00000002#32
  | .oc => 0x00000001#32
  | .fault => 0x00000007#32
  | .sfault => 0x00010007#32
  | .tcdeg => 0xFFFC0000#32
  | .intdeg => 0x0000FFF0#32

/-- Why a word of spec/opcode_table.json's numbering is no instruction. -/
inductive DecodeReject where
  /-- A CMD word has 11 bits: bits 15 to 11 of its two bytes must be 0 (R47, R56). -/
  | aboveCommandBits
  /-- A frame has 32 bits, no more (R45, R56). -/
  | widerThanFrame
  /-- The number has bits outside the width it was given. -/
  | outsideWidth
  deriving DecidableEq, Repr

/-- A word of the opcode table's numbering: a command word, or a frame that lies in the frame buffer. -/
inductive TableWord where
  | cmd (c : CmdWord)
  | frame (w : FrameWord)
  deriving DecidableEq, Repr

/-- The format a word of `nbits` bits belongs to: 11 bits, or the 16 of the two bytes that hold them, are a command word;
any other width up to 32 is a frame whose remaining bits are 0 (R47, R52, R56; assumption 2). -/
def readTableWord (nbits w : Nat) : Except DecodeReject TableWord :=
  if nbits = 11 ∨ nbits = 16 then
    if cmdWordWellFormed w then .ok (.cmd (BitVec.ofNat 11 w)) else .error .aboveCommandBits
  else if 32 < nbits then .error .widerThanFrame
  else if w < 2 ^ nbits then .ok (.frame (BitVec.ofNat 32 w))
  else .error .outsideWidth

/-- The event that makes the block run the instruction of a table word: the command word itself, or the observation of
the whole record of the frame (DECODE is the composite of all the FRAME operations, R53, R59). -/
def tableWordEvent : TableWord → HostEvent
  | .cmd c => .command c
  | .frame _ => .observe .decode

/-- The decoder on a word of spec/opcode_table.json's numbering. -/
def decodeTableWord (nbits w : Nat) : Option Instr :=
  match readTableWord nbits w with
  | .ok t => some (decodeEvent (tableWordEvent t))
  | .error _ => none

end Sys2Proof
end

