-- ==== Sys2Proof/Machine/State.lean ====
section
/-!
DEFINITION. The state of the machine (spec/10_state.md R16 to R30), its reset value (R28), and the reasons a step can stop.

The block's own state is `buf`, `cnt` and `ovr` and nothing else (R19). The last three fields belong to the model and not
to the block: what the host presents next, what it last read, and the counter of the free values.
-/

namespace Sys2Proof.Machine

/-- The four byte registers `buf[0]` to `buf[3]` (R16). -/
structure FrameBuf where
  b0 : Byte
  b1 : Byte
  b2 : Byte
  b3 : Byte
  deriving DecidableEq, Repr

/-- The result record, the source's DecodedReading (R22). -/
structure DecodedReading where
  tcRaw : Int
  intRaw : Int
  fault : Bool
  scvFault : Bool
  scgFault : Bool
  ocFault : Bool
  faultD16 : Bool
  sensorFault : Bool
  deriving DecidableEq, Repr

/-- A signed fixed-point number, the exact rational `raw / 2 ^ frac`: the form R84 and R86 give the temperatures in
degrees Celsius. -/
structure Fixed where
  raw : Int
  frac : Nat
  deriving DecidableEq, Repr

/-- The value of one output as the host reads it: one constructor for each FRAME operation. -/
inductive Output where
  | record (r : DecodedReading)
  | tcRaw (v : Int)
  | intRaw (v : Int)
  | faultD16 (b : Bool)
  | scvFault (b : Bool)
  | scgFault (b : Bool)
  | ocFault (b : Bool)
  | fault (b : Bool)
  | sensorFault (b : Bool)
  | tcDeg (t : Fixed)
  | intDeg (t : Fixed)
  deriving DecidableEq, Repr

/-- The machine. -/
structure State where
  /-- The byte registers (R16, R17). -/
  buf : FrameBuf
  /-- The byte counter, one of 0 to 4: the encodings 5, 6 and 7 cannot be written down (R18). -/
  cnt : Fin 5
  /-- The overrun flag (R19). -/
  ovr : Bool
  /-- MODEL. What the host presents from now on, next first; when it is empty the ports carry IDLE (assumption 1). -/
  input : List HostEvent
  /-- MODEL. The answer to the host's last observation: `none` when there is no result, and before the first one
  (R11, R23; assumption 4). -/
  lastRead : Option Output
  /-- MODEL. How many free bytes have been drawn from `Config.freeByte` (assumption 3). -/
  freeNext : Nat
  deriving DecidableEq, Repr

/-- The faults of the machine: there are none. The block "never traps, hangs or produces an undefined result on any
input" (R14, answer 5), so no constructor exists and nobody can raise one (safe). -/
inductive Fault : Type
  deriving DecidableEq, Repr

/-- The refusals of the machine. -/
inductive Refusal where
  /-- Raised by `exec` alone, for an instruction that has no meaning yet; no arm does so now. Safe: nothing is claimed of
  the instruction. -/
  | notModelled (mnemonic : String)
  deriving DecidableEq, Repr

/-- The machine right after RESET (R28, R114): `cnt` and `ovr` are 0. The spec leaves the byte registers unspecified; here
they are 0 (DESIGN CHOICE, assumption 5, unsafe), which no observation can see (R29). The host has presented nothing and
read nothing yet (assumptions 1 and 4), and no free byte has been drawn (assumption 3). -/
def State.reset : State where
  buf := ⟨0#8, 0#8, 0#8, 0#8⟩
  cnt := 0
  ovr := false
  input := []
  lastRead := none
  freeNext := 0

end Sys2Proof.Machine
end

