-- ==== Sys2Proof/Machine/Operands.lean ====
section
/-!
DEFINITION. The operands of the FRAME operations: the frame word, its halves and fields, the two sign-extending
extractions and the scalings (spec/20_memory.md, 30_encoding.md, 41_temperature.md, 43_scaling.md).
-/

namespace Sys2Proof.Machine

/-- `asr(v, k)`: the arithmetic right shift (R8). -/
def asr {w : Nat} (v : BitVec w) (k : Nat) : BitVec w := v.sshiftRight k

/-- `lsr(v, k)`: the logical right shift, used by no output of the block (R8, R70). -/
def lsr {w : Nat} (v : BitVec w) (k : Nat) : BitVec w := v >>> k

/-- The 16-bit half made of two bytes, the first the more significant (R33). -/
def half (hi lo : Byte) : Half := hi ++ lo

/-- The upper half `h = W[31:16]` (R21). -/
def FrameBuf.upper (b : FrameBuf) : Half := half b.b0 b.b1

/-- The lower half `l = W[15:0]` (R21). -/
def FrameBuf.lower (b : FrameBuf) : Half := half b.b2 b.b3

/-- The frame word `W`, byte 0 most significant (R21, R33). -/
def FrameBuf.word (b : FrameBuf) : FrameWord := b.b0 ++ b.b1 ++ b.b2 ++ b.b3

/-- The four bytes of a frame word: byte `i` is bits `D(31-8i)` to `D(24-8i)` (R34, R40). -/
def FrameBuf.ofWord (w : FrameWord) : FrameBuf where
  b0 := w.extractLsb' 24 8
  b1 := w.extractLsb' 16 8
  b2 := w.extractLsb' 8 8
  b3 := w.extractLsb' 0 8

/-- Bits `lo + n - 1` down to `lo` of a frame (R7, R45). -/
def frameBits (w : FrameWord) (lo n : Nat) : BitVec n := w.extractLsb' lo n

/-- The thermocouple field `tc = W[31:18]` (R45, R49). -/
def tcField (w : FrameWord) : BitVec 14 := frameBits w 18 14

/-- The internal field `int = W[15:4]` (R45, R50). -/
def intField (w : FrameWord) : BitVec 12 := frameBits w 4 12

/-- The reserved bit D17, which no output reads (R45, R54). -/
def rsv17Field (w : FrameWord) : Bool := w.getLsbD 17

/-- The reserved bit D3, which no output reads (R45, R54). -/
def rsv3Field (w : FrameWord) : Bool := w.getLsbD 3

/-- The 16-bit vector `asr(h, 2)`: TCRAW's intermediate, and the port `tc_raw` at 16 bits (R64, R73). -/
def tcShifted (b0 b1 : Byte) : Half := asr (half b0 b1) Config.tcShift

/-- The 16-bit vector `asr(l, 4)`: INTRAW's intermediate, and the port `int_raw` at 16 bits (R65, R73). -/
def intShifted (b2 b3 : Byte) : Half := asr (half b2 b3) Config.intShift

/-- TCRAW: the thermocouple temperature in quarters of a degree Celsius (R64). -/
def tcRawOf (b0 b1 : Byte) : Int := (tcShifted b0 b1).toInt

/-- INTRAW: the internal temperature in sixteenths of a degree Celsius (R65). -/
def intRawOf (b2 b3 : Byte) : Int := (intShifted b2 b3).toInt

/-- The port `tc_raw` at the width `OUT_W` it is given: the field sign-extended (R73; assumption 7). -/
def tcPortAt (outW : Nat) (b : FrameBuf) : BitVec outW := (tcField b.word).signExtend outW

/-- The port `int_raw` at the width `OUT_W` it is given: the field sign-extended (R73; assumption 7). -/
def intPortAt (outW : Nat) (b : FrameBuf) : BitVec outW := (intField b.word).signExtend outW

/-- TCDEG: `tc_raw` read as a number with two fraction bits, the exact rational `tc_raw / 4` (R84). -/
def tcDegOf (tcRaw : Int) : Fixed := ⟨tcRaw, Config.tcFrac⟩

/-- INTDEG: `int_raw` read as a number with four fraction bits, the exact rational `int_raw / 16` (R85). -/
def intDegOf (intRaw : Int) : Fixed := ⟨intRaw, Config.intFrac⟩

/-- The exact rational a fixed-point number stands for (R84 to R86). -/
def Fixed.value (t : Fixed) : Rat := (t.raw : Rat) / (2 ^ t.frac : Nat)

/-- The integer part, rounded toward minus infinity (R84). -/
def Fixed.intPart (t : Fixed) : Int := t.raw / (2 ^ t.frac : Nat)

/-- The fraction, in units of the lowest bit and never negative (R84). -/
def Fixed.fracPart (t : Fixed) : Int := t.raw % (2 ^ t.frac : Nat)

end Sys2Proof.Machine
end

