-- ==== Sys2Proof/Machine/Flags.lean ====
section
/-!
DEFINITION. The bit tests and the derived flags of a frame (spec/42_faults.md R74 to R79).
-/

namespace Sys2Proof.Machine

/-- FD16: frame bit D16, `b1[0]` (R51, R74). -/
def faultD16Of (b1 : Byte) : Bool := b1.getLsbD 0

/-- SCV: frame bit D2, `b3[2]` (R51, R75). -/
def scvOf (b3 : Byte) : Bool := b3.getLsbD 2

/-- SCG: frame bit D1, `b3[1]` (R51, R76). -/
def scgOf (b3 : Byte) : Bool := b3.getLsbD 1

/-- OC: frame bit D0, `b3[0]` (R51, R77). -/
def ocOf (b3 : Byte) : Bool := b3.getLsbD 0

/-- FAULT: the OR of the three specific bits; D16 is not read (R78; spec/90_conflicts.md C1). -/
def faultOf (b3 : Byte) : Bool := scvOf b3 || scgOf b3 || ocOf b3

/-- SFAULT: any of the four fault-related bits (R79; spec/90_conflicts.md C3). -/
def sensorFaultOf (b1 b3 : Byte) : Bool := faultD16Of b1 || faultOf b3

/-- A consistent frame: `D16 = D2 | D1 | D0` (R13, R82). The block does not check this. -/
def consistentFrame (b : FrameBuf) : Bool := faultD16Of b.b1 == faultOf b.b3

/-- DECODE: the whole record of a frame (R59). -/
def decodeFrame (b : FrameBuf) : DecodedReading where
  tcRaw := tcRawOf b.b0 b.b1
  intRaw := intRawOf b.b2 b.b3
  fault := faultOf b.b3
  scvFault := scvOf b.b3
  scgFault := scgOf b.b3
  ocFault := ocOf b.b3
  faultD16 := faultD16Of b.b1
  sensorFault := sensorFaultOf b.b1 b.b3

end Sys2Proof.Machine
end

