-- ==== Sys2Proof/Machine/Ops.lean ====
section
/-!
DEFINITION. The named operations over the frame buffer, the counter, the flags and the ports.

Overrun is the one exception of the spec. Taking it is `raiseOverrun` (R101, R104), and what clears it is
`frameBoundary` (R105), which stands beside it.
-/

namespace Sys2Proof.Machine

/-- `buf[i]` (R10, R16). -/
def FrameBuf.get (b : FrameBuf) : Fin 4 → Byte
  | 0 => b.b0
  | 1 => b.b1
  | 2 => b.b2
  | 3 => b.b3

/-- `buf[i] <- v`, that is `MemWrite(i, 1, v)` (R10, R96). -/
def FrameBuf.set (b : FrameBuf) (i : Fin 4) (v : Byte) : FrameBuf :=
  match i with
  | 0 => { b with b0 := v }
  | 1 => { b with b1 := v }
  | 2 => { b with b2 := v }
  | 3 => { b with b3 := v }

/-- The byte registers in order. -/
def FrameBuf.toList (b : FrameBuf) : List Byte := [b.b0, b.b1, b.b2, b.b3]

/-- The unsigned value of bytes read big-endian, the first the most significant (R10, R33). -/
def bigEndian (bytes : List Byte) : Nat := bytes.foldl (fun acc b => 256 * acc + b.toNat) 0

/-- `MemRead(a, n)`: `n` byte registers from index `a`, big-endian; defined only for `a + n <= 4` (R10). -/
def FrameBuf.memRead (b : FrameBuf) (a n : Nat) : Option (BitVec (8 * n)) :=
  if memReadWellFormed a n then some (BitVec.ofNat (8 * n) (bigEndian ((b.toList.drop a).take n))) else none

/-- `valid`: a complete frame is held; not a register (R20). -/
def State.valid (s : State) : Bool := s.cnt == 4

/-- `result`: what a consumer observes, `none` when no complete frame is held (R23). -/
def State.result (s : State) : Option DecodedReading :=
  if s.valid then some (decodeFrame s.buf) else none

/-- The output ports (R15), each with its width; the two temperatures have `OUT_W` bits, which is OPEN and therefore an
argument (R5, R73; assumption 7). -/
structure Ports (outW : Nat) where
  valid : Bool
  ovr : Bool
  tcRaw : BitVec outW
  intRaw : BitVec outW
  fault : Bool
  faultD16 : Bool
  scvFault : Bool
  scgFault : Bool
  ocFault : Bool
  sensorFault : Bool
  deriving DecidableEq, Repr

/-- What the pins of a block with this `OUT_W` carry in a state: the decoded outputs are DECODE of whatever the byte
registers hold, at every moment, and mean something only when `valid` is 1 (R15, R23; spec/90_conflicts.md C8). -/
def State.pins (s : State) (outW : Nat) : Ports outW where
  valid := s.valid
  ovr := s.ovr
  tcRaw := tcPortAt outW s.buf
  intRaw := intPortAt outW s.buf
  fault := faultOf s.buf.b3
  faultD16 := faultD16Of s.buf.b1
  scvFault := scvOf s.buf.b3
  scgFault := scgOf s.buf.b3
  ocFault := ocOf s.buf.b3
  sensorFault := sensorFaultOf s.buf.b1 s.buf.b3

/-- Taking the exception Overrun: `ovr <- 1` and nothing else; nothing is saved and no control moves (R10, R101, R104). -/
def State.raiseOverrun (s : State) : State := { s with ovr := true }

/-- A frame boundary: `cnt <- 0 ; ovr <- 0`. It is the only thing that clears an overrun (R36, R90, R105). -/
def State.frameBoundary (s : State) : State := { s with cnt := 0, ovr := false }

/-- The four next free bytes go into the byte registers (R11, R28, R114; assumption 3). -/
def State.drawBytes (s : State) : State :=
  { s with
    buf := ⟨Config.freeByte s.freeNext, Config.freeByte (s.freeNext + 1), Config.freeByte (s.freeNext + 2),
      Config.freeByte (s.freeNext + 3)⟩
    freeNext := s.freeNext + 4 }

/-- A byte that is accepted: `buf[cnt] <- din ; cnt <- cnt + 1`, with the old `cnt` as the index (R91). -/
def State.acceptByte (s : State) (din : Byte) (h : s.cnt.val < 4) : State :=
  { s with buf := s.buf.set ⟨s.cnt.val, h⟩ din, cnt := ⟨s.cnt.val + 1, Nat.succ_lt_succ h⟩ }

/-- One observation of an output. With a complete frame the host gets the value the output has on it; with none it gets no
value (R23, R118). No register of the block changes (R39). -/
def State.observe (s : State) (f : FrameBuf → Output) : State :=
  { s with lastRead := if s.valid then some (f s.buf) else none }

/-- The event of this step is taken off what the host presents (R42). -/
def State.takeInput (s : State) : State := { s with input := s.input.tail }

/-- A complete frame lies in the byte registers. -/
def State.holdFrame (s : State) (w : FrameWord) : State := { s with buf := FrameBuf.ofWord w, cnt := 4 }

/-- The host presents this event before all others. -/
def State.present (s : State) (e : HostEvent) : State := { s with input := e :: s.input }

end Sys2Proof.Machine
end

