-- ==== Sys2Proof/Machine/Commands.lean ====
section
/-!
DEFINITION. The four commands of layer L1 (spec/44_commands.md, spec/70_reset_and_hazards.md R114).
-/

namespace Sys2Proof.Machine

/-- RESET: `cnt <- 0 ; ovr <- 0` and four unspecified bytes in the byte registers (R114). -/
def execReset (s : State) : Host.Outcome State Fault Refusal :=
  .next s.drawBytes.frameBoundary

/-- START: `cnt <- 0 ; ovr <- 0`; the byte registers are not changed (R90). -/
def execStart (s : State) : Host.Outcome State Fault Refusal :=
  .next s.frameBoundary

/-- BYTE: accepted at `cnt < 4` (R91), an overrun at `cnt = 4` (R92). -/
def execByte (din : Byte) (s : State) : Host.Outcome State Fault Refusal :=
  if h : s.cnt.val < 4 then .next (s.acceptByte din h) else .next s.raiseOverrun

/-- IDLE: the state after the step equals the state before (R93). -/
def execIdle (s : State) : Host.Outcome State Fault Refusal :=
  .next s

end Sys2Proof.Machine
end

