-- ==== Sys2Proof/Machine/FaultBits.lean ====
section
/-!
DEFINITION. The four fault bits of the wire and the two derived flags (spec/42_faults.md).
-/

namespace Sys2Proof.Machine

/-- FD16: the host reads frame bit D16 as received (R74). -/
def execFd16 (s : State) : Host.Outcome State Fault Refusal :=
  .next (s.observe fun b => .faultD16 (faultD16Of b.b1))

/-- SCV: the host reads the short-circuit-to-supply fault (R75). -/
def execScv (s : State) : Host.Outcome State Fault Refusal :=
  .next (s.observe fun b => .scvFault (scvOf b.b3))

/-- SCG: the host reads the short-circuit-to-ground fault (R76). -/
def execScg (s : State) : Host.Outcome State Fault Refusal :=
  .next (s.observe fun b => .scgFault (scgOf b.b3))

/-- OC: the host reads the open-circuit fault (R77). -/
def execOc (s : State) : Host.Outcome State Fault Refusal :=
  .next (s.observe fun b => .ocFault (ocOf b.b3))

/-- FAULT: the host reads the aggregate of the three specific faults (R78). -/
def execFault (s : State) : Host.Outcome State Fault Refusal :=
  .next (s.observe fun b => .fault (faultOf b.b3))

/-- SFAULT: the host reads the condition of its fault gate (R79). A 1 is data, not an error of the block (R99). -/
def execSfault (s : State) : Host.Outcome State Fault Refusal :=
  .next (s.observe fun b => .sensorFault (sensorFaultOf b.b1 b.b3))

end Sys2Proof.Machine
end

