-- ==== Sys2Proof/Machine/Frame.lean ====
section
/-!
DEFINITION. DECODE, the composite FRAME operation (spec/40_decode.md).
-/

namespace Sys2Proof.Machine

/-- DECODE: the host reads the whole record, and nothing of the block changes (R59, R60, R61). -/
def execDecode (s : State) : Host.Outcome State Fault Refusal :=
  .next (s.observe fun b => .record (decodeFrame b))

end Sys2Proof.Machine
end

