-- ==== Sys2Proof/Machine/Scaling.lean ====
section
/-!
DEFINITION. The scalings to degrees Celsius (spec/43_scaling.md).
-/

namespace Sys2Proof.Machine

/-- TCDEG: the host reads `tc_raw` as degrees Celsius, exactly (R84, R86). -/
def execTcdeg (s : State) : Host.Outcome State Fault Refusal :=
  .next (s.observe fun b => .tcDeg (tcDegOf (tcRawOf b.b0 b.b1)))

/-- INTDEG: the host reads `int_raw` as degrees Celsius, exactly (R85, R86). -/
def execIntdeg (s : State) : Host.Outcome State Fault Refusal :=
  .next (s.observe fun b => .intDeg (intDegOf (intRawOf b.b2 b.b3)))

end Sys2Proof.Machine
end

