-- ==== Sys2Proof/Machine/Temperature.lean ====
section
/-!
DEFINITION. The two temperature extractions (spec/41_temperature.md).
-/

namespace Sys2Proof.Machine

/-- TCRAW: the host reads the thermocouple temperature in quarters of a degree (R64). -/
def execTcraw (s : State) : Host.Outcome State Fault Refusal :=
  .next (s.observe fun b => .tcRaw (tcRawOf b.b0 b.b1))

/-- INTRAW: the host reads the internal temperature in sixteenths of a degree (R65). -/
def execIntraw (s : State) : Host.Outcome State Fault Refusal :=
  .next (s.observe fun b => .intRaw (intRawOf b.b2 b.b3))

end Sys2Proof.Machine
end

