-- ==== Sys2Proof/Machine/Dispatch.lean ====
section
/-!
DEFINITION. `exec`: one arm for each operation of spec/opcode_table.json.
-/

namespace Sys2Proof.Machine

def exec (i : Instr) (s : State) : Host.Outcome State Fault Refusal :=
  match i with
  | .reset => Sys2Proof.Machine.execReset s
  | .start => Sys2Proof.Machine.execStart s
  | .byte din => Sys2Proof.Machine.execByte din s
  | .idle => Sys2Proof.Machine.execIdle s
  | .decode => Sys2Proof.Machine.execDecode s
  | .tcraw => Sys2Proof.Machine.execTcraw s
  | .intraw => Sys2Proof.Machine.execIntraw s
  | .fd16 => Sys2Proof.Machine.execFd16 s
  | .scv => Sys2Proof.Machine.execScv s
  | .scg => Sys2Proof.Machine.execScg s
  | .oc => Sys2Proof.Machine.execOc s
  | .fault => Sys2Proof.Machine.execFault s
  | .sfault => Sys2Proof.Machine.execSfault s
  | .tcdeg => Sys2Proof.Machine.execTcdeg s
  | .intdeg => Sys2Proof.Machine.execIntdeg s

end Sys2Proof.Machine
end

