-- ==== Sys2Proof/Machine/Fetch.lean ====
section
/-!
DEFINITION. What a step samples. The block fetches no instructions (R18); its input ports are sampled once per step (R15),
and here they carry the next event the host presents (assumption 1).
-/

namespace Sys2Proof.Machine

/-- The event of the coming step. When the host presents nothing, the ports carry the word 000: IDLE (R93). -/
def State.nextEvent (s : State) : HostEvent := s.input.head?.getD (.command idleWord)

/-- The operation of the coming step. -/
def State.nextInstr (s : State) : Instr := decodeEvent s.nextEvent

/-- Places a word of the opcode table so that the next step runs it: a command word goes on the ports; a frame goes into
the frame buffer, complete, and the host looks at its whole record (assumptions 2 and 6). A word the decoder refuses
changes nothing. -/
def State.placeTableWord (s : State) (nbits w : Nat) : State :=
  match readTableWord nbits w with
  | .ok (.cmd c) => s.present (.command c)
  | .ok (.frame f) => (s.holdFrame f).present (.observe .decode)
  | .error _ => s

end Sys2Proof.Machine
end

