-- ==== Sys2Proof/Machine/Step.lean ====
section
/-!
DEFINITION. One step of the machine: the next event of the host is sampled and its operation runs (R89).
-/

namespace Sys2Proof.Machine

/-- One step: take the event off the input, decode it, run it. Anything the operation does not assign keeps its value. -/
def step (s : State) : Host.Outcome State Fault Refusal := exec s.nextInstr s.takeInput

/-- The state in which the next step runs the given word of spec/opcode_table.json (assumption 6). -/
def State.withFetchWord (s : State) (nbits w : Nat) : State := s.placeTableWord nbits w

end Sys2Proof.Machine
end

