-- ==== Sys2Proof/Safety.lean ====
section
/-!
DEFINITION. The terms in which claims about the machine are made: runs, answers, the abstract state of R30 (e), what two
states have in common for every observer (R29), the invariant of R30 (d), and the host's side of the contract
(spec/60_exceptions.md sections 5 and 6, spec/70_reset_and_hazards.md sections 2 and 4).
-/

namespace Sys2Proof.Machine

/-- A sequence of operations, one after the other, stopping at the first that has no next state (R42, R124). -/
def runInstrs : List Instr → State → Host.Outcome State Fault Refusal
  | [], s => .next s
  | i :: rest, s =>
    match exec i s with
    | .next t => runInstrs rest t
    | .fault r => .fault r
    | .refused r => .refused r

/-- The value an operation leaves with the host: what a FRAME operation answers in this state. -/
def answer (i : Instr) (s : State) : Option Output :=
  match exec i s with
  | .next t => t.lastRead
  | .fault _ => none
  | .refused _ => none

/-- The final observation of a run: `valid`, `ovr`, `result` (R124), and what the host last read. -/
structure Observation where
  valid : Bool
  ovr : Bool
  result : Option DecodedReading
  lastRead : Option Output
  deriving DecidableEq, Repr

/-- What can be observed of a state. -/
def State.observation (s : State) : Observation := ⟨s.valid, s.ovr, s.result, s.lastRead⟩

/-- What can be observed after a sequence of operations, if it ends in a next state. -/
def observationAfter (is : List Instr) (s : State) : Option Observation :=
  match runInstrs is s with
  | .next t => some t.observation
  | .fault _ => none
  | .refused _ => none

/-- The invariant of R30 (d): an overrun is recorded only while a complete frame is held. (R30 (a), `cnt <= 4`, is part of
the type of `cnt`.) -/
abbrev State.Inv (s : State) : Prop := s.ovr = true → s.cnt = 4

/-- Two states that no observer can tell apart: the same counter, flag, input and last answer, and the same bytes at the
indices already delivered. Bytes at `cnt` and above, and the free values still to be drawn, may differ (R29, R30). -/
abbrev State.sameSeen (s t : State) : Prop :=
  s.cnt = t.cnt ∧ s.ovr = t.ovr ∧ s.input = t.input ∧ s.lastRead = t.lastRead ∧
    ∀ i : Fin 4, i.val < s.cnt.val → s.buf.get i = t.buf.get i

/-- The abstract state of R30 (e): the bytes accepted since the last START or RESET, and the overrun flag. -/
structure Accepted where
  bytes : List Byte
  ovr : Bool
  deriving DecidableEq, Repr

/-- The abstract state of a machine state. -/
def State.accepted (s : State) : Accepted := ⟨s.buf.toList.take s.cnt.val, s.ovr⟩

/-- What each operation does to the abstract state (R30, R89): a boundary empties it, a byte is appended while there are
fewer than four, a fifth sets the flag, and everything else leaves it. -/
def Accepted.after (a : Accepted) : Instr → Accepted
  | .reset => ⟨[], false⟩
  | .start => ⟨[], false⟩
  | .byte din => if a.bytes.length < 4 then ⟨a.bytes ++ [din], a.ovr⟩ else ⟨a.bytes, true⟩
  | .idle => a
  | .decode => a
  | .tcraw => a
  | .intraw => a
  | .fd16 => a
  | .scv => a
  | .scg => a
  | .oc => a
  | .fault => a
  | .sfault => a
  | .tcdeg => a
  | .intdeg => a

/-- The result of an abstract state: DECODE of its bytes when there are four (R23, R30). -/
def Accepted.result (a : Accepted) : Option DecodedReading :=
  match a.bytes with
  | [b0, b1, b2, b3] => some (decodeFrame ⟨b0, b1, b2, b3⟩)
  | _ => none

/-- What the host does with an operation: the rows of the table in R109. -/
inductive HostAction where
  /-- RESET or START: a frame boundary (R36). -/
  | boundary
  /-- BYTE: one byte delivered. -/
  | deliver
  /-- IDLE: nothing. -/
  | rest
  /-- A FRAME operation: an output is looked at. -/
  | look
  deriving DecidableEq, Repr

/-- The row of R109 an operation belongs to. -/
def hostAction : Instr → HostAction
  | .reset => .boundary
  | .start => .boundary
  | .byte _ => .deliver
  | .idle => .rest
  | .decode => .look
  | .tcraw => .look
  | .intraw => .look
  | .fd16 => .look
  | .scv => .look
  | .scg => .look
  | .oc => .look
  | .fault => .look
  | .sfault => .look
  | .tcdeg => .look
  | .intdeg => .look

/-- How many bytes a sequence of operations delivers. -/
def bytesIn (is : List Instr) : Nat := is.countP fun i => hostAction i == .deliver

/-- No START and no RESET stands in the sequence. -/
def noBoundary (is : List Instr) : Bool := is.all fun i => hostAction i != .boundary

/-- The duties of the host, read off a sequence of operations from a counter value on (R109, R116, R118, R120): no fifth
byte without a boundary before it, and outputs are looked at only when the frame is complete. -/
def hostObeys : Nat → List Instr → Bool
  | _, [] => true
  | k, i :: is =>
    match hostAction i with
    | .boundary => hostObeys 0 is
    | .deliver => decide (k < 4) && hostObeys (k + 1) is
    | .rest => hostObeys k is
    | .look => k == 4 && hostObeys k is

/-- What the Bus Reader returns instead of a frame, with the reason its driver gives (R12, R97, R106). -/
inductive TransportError where
  /-- The bus device could not be opened. -/
  | openError (reason : String)
  /-- The transfer failed at the driver level. -/
  | transferError (reason : String)
  deriving DecidableEq, Repr

/-- The result of `read_frame(device_path)`: a RawFrame or a TransportError (R106). -/
inductive BusResult where
  | frame (f : FrameBuf)
  | error (e : TransportError)
  deriving DecidableEq, Repr

/-- The device path of a read: the caller's argument, or the configured default where there is none (R106). -/
def devicePath (p : Config.OpenParams) (argument : Option String) : String := argument.getD p.devicePath

/-- What one `read_frame` asks of the Bus Reader: a read of exactly 4 bytes from one device, with no write payload, at a
clock rate that is fixed for the transfer (R106, R107). -/
structure BusRequest where
  path : String
  clockHz : Nat
  byteCount : Nat
  deriving DecidableEq, Repr

/-- The request of a read with the given OPEN parameters (R5, R106, R107; assumption 8). -/
def busRequest (p : Config.OpenParams) (argument : Option String) : BusRequest where
  path := devicePath p argument
  clockHz := p.sclkHz
  byteCount := Config.frameBytes

/-- The commands of one `read_frame` followed by `decode`: START first, then the four bytes of a frame, and no byte after
a transport error (R98, R108). -/
def readCommands : BusResult → List Instr
  | .frame f => framePseudo f.b0 f.b1 f.b2 f.b3
  | .error _ => [.start]

/-- The source's single-shot program: RESET, then one read (R124). -/
def singleShot (r : BusResult) : List Instr := .reset :: readCommands r

/-- The fault gate: a temperature may be used only if `valid` is 1 and `sensor_fault` is 0 (R111). -/
def State.gatedTemperature (s : State) : Option Fixed :=
  match s.result with
  | some r => if r.sensorFault then none else some (tcDegOf r.tcRaw)
  | none => none

/-- What the caller reports after a read (R97, R110). -/
inductive Report where
  /-- The temperature line, in hundredths of a degree Celsius: two decimal places (R88, R110). -/
  | temperature (hundredths : Int)
  /-- A fault condition in the decoded frame. -/
  | sensorFault (r : DecodedReading)
  /-- A failed read. -/
  | transport (e : TransportError)
  /-- No complete frame is held. -/
  | noFrame
  deriving DecidableEq, Repr

/-- A number of quarters of a degree in hundredths (R88). -/
def hundredthsOf (tcRaw : Int) : Int := 25 * tcRaw

/-- What the caller reports in the state after `readCommands`: a transport error without consulting the block (R108), a
fault before any temperature (R111), else the temperature (R110). -/
def callerReport (r : BusResult) (s : State) : Report :=
  match r with
  | .error e => .transport e
  | .frame _ =>
    match s.result with
    | none => .noFrame
    | some d => if d.sensorFault then .sensorFault d else .temperature (hundredthsOf d.tcRaw)

/-- The exit status is 0 on success and non-zero on every transport error and every fault (R100, R110). -/
def Report.exitsZero : Report → Bool
  | .temperature _ => true
  | .sensorFault _ => false
  | .transport _ => false
  | .noFrame => false

/-- The host events that ask for a sequence of operations, each in its canonical encoding. -/
def eventsOf (is : List Instr) : List HostEvent := is.map encode

end Sys2Proof.Machine
end

