-- ==== Sys2Proof/Certificates/Slice0/Obligations.lean ====
section
/-!
DEFINITION. The statements for the provers, taken from the numbered rules of spec/.

An operation that reaches a next state is stated as an equation `exec i s = .next t`, so every such statement is also a
completion statement and a frame: `{ s with … }` leaves every field unchanged but the ones it names.
-/

open Sys2Proof Sys2Proof.Machine

/-! ### Encoding -/

/-- Decoding the encoding of an operation gives it back, for every operation and every byte: a command word by the
table of spec/30_encoding.md section 2; a FRAME operation by the output looked at, which is the model's form
(assumption 2). -/
def Obligations.EncodeDecodeRoundTrip : Prop :=
  ∀ i : Instr, i.wellFormed = true → decodeEvent (encode i) = i

/-- R48. Every command word selects exactly one command, by mask and match, whatever its don't-care bits are, and the
canonical word of the command it selects has every don't-care bit 0. -/
def Obligations.CommandWordSelectsByPriority : Prop :=
  ∀ c : CmdWord,
    (c &&& 0x400#11 = 0x400#11 →
      decodeEvent (.command c) = .reset ∧ encode (decodeEvent (.command c)) = .command 0x400#11) ∧
    (c &&& 0x600#11 = 0x200#11 →
      decodeEvent (.command c) = .start ∧ encode (decodeEvent (.command c)) = .command 0x200#11) ∧
    (c &&& 0x700#11 = 0x100#11 →
      decodeEvent (.command c) = .byte (c.setWidth 8) ∧
        encode (decodeEvent (.command c)) = .command (0x100#11 + (c.setWidth 8).setWidth 11)) ∧
    (c &&& 0x700#11 = 0x000#11 →
      decodeEvent (.command c) = .idle ∧ encode (decodeEvent (.command c)) = .command 0x000#11) ∧
    (c &&& 0x400#11 = 0x400#11 ∨ c &&& 0x600#11 = 0x200#11 ∨ c &&& 0x700#11 = 0x100#11 ∨ c &&& 0x700#11 = 0x000#11)

/-- Eight command words written out from R48 and the vectors of spec/95_test_vectors.md section 2.6. -/
def Obligations.CommandWordsFromTheVectors : Prop :=
  decodeEvent (.command 0b00000000000#11) = .idle ∧
  decodeEvent (.command 0b00001010110#11) = .idle ∧
  decodeEvent (.command 0b00110101010#11) = .byte 0xAA#8 ∧
  decodeEvent (.command 0b00111111111#11) = .byte 0xFF#8 ∧
  decodeEvent (.command 0b01010101010#11) = .start ∧
  decodeEvent (.command 0b01110101010#11) = .start ∧
  decodeEvent (.command 0b10100000000#11) = .reset ∧
  decodeEvent (.command 0b11111111111#11) = .reset

/-! ### The step -/

/-- A step takes the next event off the input and executes the operation it decodes to; with no event it executes
IDLE. That the input is a list held in the state, and that an empty one is IDLE, is the model's choice (assumption 1).
-/
def Obligations.StepRunsDecodedInstruction : Prop :=
  (∀ (s : State) (e : HostEvent) (rest : List HostEvent),
    s.input = e :: rest → step s = exec (decodeEvent e) { s with input := rest }) ∧
  (∀ s : State, s.input = [] → step s = exec .idle s)

/-- spec/44_commands.md section 1 (R89): the step function, on every state and every command word, and the outputs
after the step. That the word is the first event of `input` and is taken off it is the model's form (assumption 1),
and so is that a command leaves `lastRead` (assumption 4). -/
def Obligations.StepFollowsStepFunction : Prop :=
  ∀ (s : State) (c : CmdWord) (rest : List HostEvent), s.input = .command c :: rest →
    ∃ t : State, step s = .next t ∧ t.input = rest ∧ t.lastRead = s.lastRead ∧
      (if c.getLsbD 10 then t.cnt = 0 ∧ t.ovr = false
       else if c.getLsbD 9 then t.buf = s.buf ∧ t.cnt = 0 ∧ t.ovr = false
       else if c.getLsbD 8 then
         if s.cnt.val < 4 then
           (∀ i : Fin 4, t.buf.get i = if i.val = s.cnt.val then c.setWidth 8 else s.buf.get i) ∧
             t.cnt.val = s.cnt.val + 1 ∧ t.ovr = s.ovr
         else t.buf = s.buf ∧ t.cnt = s.cnt ∧ t.ovr = true
       else t.buf = s.buf ∧ t.cnt = s.cnt ∧ t.ovr = s.ovr) ∧
      (∀ outW : Nat, (t.pins outW).valid = decide (t.cnt = 4) ∧ (t.pins outW).ovr = t.ovr) ∧
      t.result = if t.cnt = 4 then some (decodeFrame t.buf) else none

/-- A run of steps on an input that holds the canonical encodings of some operations is the run of those operations.
That the host's events are a list in the state is the model's choice (assumption 1), and that a FRAME operation is
encoded as the observation of its output is too (assumption 2). -/
def Obligations.StepsOnInputRunTheOperations : Prop :=
  ∀ (is : List Instr) (s : State) (rest : List HostEvent), s.input = eventsOf is ++ rest →
    Host.Core.run Sys2Proof.core is.length s = runInstrs is { s with input := rest }

/-- Every state has a next state: the machine never halts and is never stuck, as spec/70_reset_and_hazards.md section
4 says of the block. -/
def Obligations.EveryStepHasNextState : Prop :=
  ∀ s : State, ∃ t : State, step s = .next t

/-- A word of the opcode table that is placed for the next step is what the next step runs: a command word as the
command it selects, a frame as DECODE on that frame. The placing is the model's (assumption 6). -/
def Obligations.PlacedWordRunsNext : Prop :=
  ∀ (s : State) (w : Nat),
    (w < 2048 → step (s.withFetchWord 16 w) = exec (decodeEvent (.command (BitVec.ofNat 11 w))) s) ∧
    (w < 4294967296 →
      step (s.withFetchWord 32 w) =
        exec .decode { s with buf := FrameBuf.ofWord (BitVec.ofNat 32 w), cnt := 4 })

/-! ### Reset -/

/-- R28. The state after reset, and the state after a RESET command in any state. -/
def Obligations.ResetValues : Prop :=
  (State.reset.cnt = 0 ∧ State.reset.ovr = false ∧ State.reset.valid = false ∧ State.reset.result = none) ∧
  ∀ s : State, ∃ t : State, exec .reset s = .next t ∧
    t.cnt = 0 ∧ t.ovr = false ∧ t.valid = false ∧ t.result = none

/-- spec/70_reset_and_hazards.md section 1 (R114): RESET, in every state. The counter and the flag are cleared, the
bytes are whatever they are, and `rst` selects it whatever else is asserted. That `freeNext`, the model's own field,
moves on by 4 is the model's form of the unspecified bytes (assumption 3), and that `lastRead` stays is the model's
choice (assumption 4), as is that the host's events to come stand in `input` (assumption 1). -/
def Obligations.ResetCommandInitialises : Prop :=
  (∀ s : State, ∃ bytes : FrameBuf,
    exec .reset s = .next { s with buf := bytes, cnt := 0, ovr := false, freeNext := s.freeNext + 4 }) ∧
  (∀ s t : State, exec .reset s = .next t → t.valid = false ∧ t.result = none) ∧
  (∀ c : CmdWord, c.getLsbD 10 = true → decodeEvent (.command c) = .reset)

/-! ### START, BYTE, IDLE -/

/-- R90. START: the counter and the flag are cleared and nothing else changes; there is no result until four more
bytes arrive; at `cnt = 0` it changes nothing but the flag; `start` beats `bv` and `din`. -/
def Obligations.StartMarksFrameBoundary : Prop :=
  (∀ s : State, exec .start s = .next { s with cnt := 0, ovr := false }) ∧
  (∀ s : State, s.cnt = 0 → exec .start s = .next { s with ovr := false }) ∧
  (∀ (s : State) (is : List Instr), bytesIn is < 4 →
    ∃ t : State, runInstrs (.start :: is) s = .next t ∧ t.valid = false ∧ t.result = none) ∧
  (∀ c : CmdWord, c.getLsbD 10 = false → c.getLsbD 9 = true → decodeEvent (.command c) = .start)

/-- R91. An accepted BYTE writes `din` at the old `cnt` and no other register, adds one to `cnt`, leaves `ovr` (which
is 0 where R30 (d) holds), and makes `valid` 1 exactly when the old `cnt` was 3. -/
def Obligations.ByteAcceptedStoresAtCounter : Prop :=
  (∀ (s : State) (din : Byte), s.cnt.val < 4 →
    ∃ t : State, exec (.byte din) s = .next t ∧
      (∀ i : Fin 4, t.buf.get i = if i.val = s.cnt.val then din else s.buf.get i) ∧
      t.cnt.val = s.cnt.val + 1 ∧ t.ovr = s.ovr ∧ (s.Inv → t.ovr = false) ∧
      (t.valid = true ↔ s.cnt.val = 3) ∧
      t.input = s.input ∧ t.lastRead = s.lastRead ∧ t.freeNext = s.freeNext) ∧
  (∀ c : CmdWord, c &&& 0x700#11 = 0x100#11 → decodeEvent (.command c) = .byte (c.setWidth 8))

/-- R92. A BYTE at `cnt = 4` sets `ovr` and changes nothing else: the frame, the counter, `valid` and `result` are as
before, and so are they after any further bytes. -/
def Obligations.ByteOverrunOnlySetsFlag : Prop :=
  (∀ (s : State) (din : Byte), s.cnt = 4 →
    exec (.byte din) s = .next { s with ovr := true } ∧
      ({ s with ovr := true } : State).valid = s.valid ∧ ({ s with ovr := true } : State).result = s.result) ∧
  (∀ (s : State) (din : Byte) (more : List Byte), s.cnt = 4 →
    runInstrs ((din :: more).map .byte) s = .next { s with ovr := true }) ∧
  (∀ (i : Instr) (s t : State), exec i s = .next t → s.ovr = true → t.ovr = false → i = .start ∨ i = .reset)

/-- R93. IDLE leaves the state as it is, and any number of IDLEs may stand anywhere in a sequence of operations. -/
def Obligations.IdleChangesNothing : Prop :=
  (∀ s : State, exec .idle s = .next s) ∧
  (∀ (is : List Instr) (s : State), runInstrs (is.filter (· ≠ .idle)) s = runInstrs is s) ∧
  (∀ c : CmdWord, c &&& 0x700#11 = 0 → decodeEvent (.command c) = .idle)

/-- R19. What sets `ovr` and what clears it, over all operations, and that it changes no output but its own. -/
def Obligations.OverrunFlagLifecycle : Prop :=
  (∀ (i : Instr) (s : State), ∃ t : State, exec i s = .next t ∧
    (t.ovr = true ↔ (s.ovr = true ∧ i ≠ .start ∧ i ≠ .reset) ∨ ((∃ din, i = .byte din) ∧ s.cnt = 4))) ∧
  (∀ (s : State) (v : Bool), ({ s with ovr := v } : State).result = s.result ∧
    ∀ outW : Nat, ({ s with ovr := v } : State).pins outW = { s.pins outW with ovr := v })

/-- spec/10_state.md section 2, over all operations: `buf[i]` is written by an accepted BYTE at `cnt = i`, by RESET,
and by nothing else. -/
def Obligations.RegistersWrittenByAcceptedByteOnly : Prop :=
  ∀ (i : Instr) (s : State), i ≠ .reset → ∃ t : State, exec i s = .next t ∧
    (∀ din : Byte, i = .byte din → ∀ j : Fin 4, t.buf.get j = if j.val = s.cnt.val then din else s.buf.get j) ∧
    ((∀ din : Byte, i ≠ .byte din) ∨ s.cnt = 4 → t.buf = s.buf)

/-- spec/10_state.md section 3: the counter over a sequence of operations with no frame boundary counts the bytes and
stops at 4, and the flag says whether there were more. Fewer than four bytes never give a result, however many IDLEs
follow (spec/70_reset_and_hazards.md section 2). -/
def Obligations.CounterCountsDeliveredBytes : Prop :=
  ∀ (is : List Instr) (s : State), noBoundary is = true →
    ∃ t : State, runInstrs is s = .next t ∧ t.cnt.val = min 4 (s.cnt.val + bytesIn is) ∧
      t.ovr = (s.ovr || decide (4 < s.cnt.val + bytesIn is)) ∧
      (t.result = none ↔ s.cnt.val + bytesIn is < 4)

/-- R37. A misframed delivery: a boundary in mid-frame abandons the partial frame and sets no flag, and no result was
there for it before; a fifth byte is not stored and sets the flag. -/
def Obligations.MisframedDeliveryNeverTraps : Prop :=
  (∀ (s : State) (i : Instr), 0 < s.cnt.val → s.cnt.val < 4 → i = .start ∨ i = .reset →
    ∃ t : State, exec i s = .next t ∧ t.cnt = 0 ∧ t.ovr = false ∧ s.result = none ∧ t.result = none) ∧
  (∀ (s : State) (din : Byte), s.cnt = 4 →
    ∃ t : State, exec (.byte din) s = .next t ∧ t.buf = s.buf ∧ t.cnt = s.cnt ∧ t.ovr = true ∧ t.result = s.result)

/-- spec/20_memory.md section 4: the operation that completes a frame is a BYTE at `cnt = 3`, which writes `buf[3]`;
while the frame stays complete no operation changes it; an operation other than RESET writes no register but the one
at the old `cnt`, and one that is not a BYTE, or is an overrun, writes none. -/
def Obligations.FrameCompletesAtomically : Prop :=
  (∀ (i : Instr) (s t : State), exec i s = .next t → s.valid = false → t.valid = true →
    ∃ din, i = .byte din ∧ s.cnt.val = 3 ∧ t.buf = { s.buf with b3 := din }) ∧
  (∀ (i : Instr) (s t : State), exec i s = .next t → s.valid = true → t.valid = true →
    t.buf = s.buf ∧ t.result = s.result) ∧
  (∀ (i : Instr) (s t : State), exec i s = .next t → i ≠ .reset →
    (∀ k : Fin 4, k.val ≠ s.cnt.val → t.buf.get k = s.buf.get k) ∧
    ((∀ din, i ≠ .byte din) ∨ s.cnt = 4 → t.buf = s.buf))

/-! ### The FRAME operations on a complete frame -/

/-- spec/40_decode.md (R59): DECODE on a complete frame leaves the whole record with the host, each field in the words
of the rule, and changes nothing of the block. That the answer is held in `lastRead` is the model's form (assumption
4). -/
def Obligations.DecodeReadsWholeRecord : Prop :=
  ∀ s : State, s.cnt = 4 → ∃ r : DecodedReading,
    exec .decode s = .next { s with lastRead := some (.record r) } ∧
    r.tcRaw = ((s.buf.word.extractLsb' 16 16).sshiftRight 2).toInt ∧
    r.tcRaw = (s.buf.word.extractLsb' 18 14).toInt ∧
    r.intRaw = ((s.buf.word.extractLsb' 0 16).sshiftRight 4).toInt ∧
    r.intRaw = (s.buf.word.extractLsb' 4 12).toInt ∧
    r.faultD16 = s.buf.word.getLsbD 16 ∧ r.scvFault = s.buf.word.getLsbD 2 ∧
    r.scgFault = s.buf.word.getLsbD 1 ∧ r.ocFault = s.buf.word.getLsbD 0 ∧
    r.fault = (r.scvFault || r.scgFault || r.ocFault) ∧ r.sensorFault = (r.faultD16 || r.fault) ∧
    (tcDegOf r.tcRaw).value = (r.tcRaw : Rat) / 4 ∧ (intDegOf r.intRaw).value = (r.intRaw : Rat) / 16

/-- spec/41_temperature.md section 1 (R64, R65): TCRAW and INTRAW on a complete frame. The shift, the subtraction of
`2^N` and the floor of the half agree, on every frame. That the answer is held in `lastRead` is the model's form
(assumption 4). -/
def Obligations.TemperatureExtraction : Prop :=
  (∀ s : State, s.cnt = 4 → ∃ v : Int,
    exec .tcraw s = .next { s with lastRead := some (.tcRaw v) } ∧
    v = ((s.buf.word.extractLsb' 16 16).sshiftRight 2).toInt ∧
    v = (s.buf.word.extractLsb' 18 14).toNat - 16384 * (if s.buf.word.getLsbD 31 then 1 else 0) ∧
    v = (s.buf.word.extractLsb' 16 16).toInt / 4) ∧
  (∀ s : State, s.cnt = 4 → ∃ v : Int,
    exec .intraw s = .next { s with lastRead := some (.intRaw v) } ∧
    v = ((s.buf.word.extractLsb' 0 16).sshiftRight 4).toInt ∧
    v = (s.buf.word.extractLsb' 4 12).toNat - 4096 * (if s.buf.word.getLsbD 15 then 1 else 0) ∧
    v = (s.buf.word.extractLsb' 0 16).toInt / 16)

/-- spec/42_faults.md section 1 (R74 to R77): the four wire bits on a complete frame, by the source's masks on bytes 1
and 3. That the answer is held in `lastRead` is the model's form (assumption 4). -/
def Obligations.WireFaultBitsByMask : Prop :=
  ∀ s : State, s.cnt = 4 →
    exec .fd16 s = .next { s with lastRead := some (.faultD16 (decide (s.buf.b1 &&& 0x01#8 ≠ 0#8))) } ∧
    exec .scv s = .next { s with lastRead := some (.scvFault (decide (s.buf.b3 &&& 0x04#8 ≠ 0#8))) } ∧
    exec .scg s = .next { s with lastRead := some (.scgFault (decide (s.buf.b3 &&& 0x02#8 ≠ 0#8))) } ∧
    exec .oc s = .next { s with lastRead := some (.ocFault (decide (s.buf.b3 &&& 0x01#8 ≠ 0#8))) }

/-- spec/42_faults.md section 2 (R78, R79): the two derived flags on a complete frame, by the spec's masks. FAULT
reads byte 3 alone, SFAULT bytes 1 and 3. That the answer is held in `lastRead` is the model's form (assumption 4). -/
def Obligations.DerivedFaultFlagsByMask : Prop :=
  ∀ s : State, s.cnt = 4 →
    exec .fault s = .next { s with lastRead := some (.fault (decide (s.buf.b3 &&& 0x07#8 ≠ 0#8))) } ∧
    exec .sfault s =
      .next { s with
        lastRead := some (.sensorFault (decide ((s.buf.b1 &&& 0x01#8) ||| (s.buf.b3 &&& 0x07#8) ≠ 0#8))) }

/-- spec/43_scaling.md (R84, R85): TCDEG and INTDEG on a complete frame. The exact rational, its integer part rounded
toward minus infinity, and a fraction that is never negative. R84 says the last two of the thermocouple temperature;
that the internal one is taken apart the same way is the model's inference (assumption 11, DEDUCED). That the answer
is held in `lastRead` is the model's form (assumption 4). -/
def Obligations.DegreesCelsiusAreExact : Prop :=
  (∀ s : State, s.cnt = 4 → ∃ t : Fixed,
    exec .tcdeg s = .next { s with lastRead := some (.tcDeg t) } ∧
    t.value = ((s.buf.word.extractLsb' 18 14).toInt : Rat) * (25 / 100) ∧
    t.intPart = ⌊t.value⌋ ∧ 0 ≤ t.fracPart ∧ t.fracPart ≤ 3 ∧ t.value = t.intPart + t.fracPart * (25 / 100)) ∧
  (∀ s : State, s.cnt = 4 → ∃ t : Fixed,
    exec .intdeg s = .next { s with lastRead := some (.intDeg t) } ∧
    t.value = ((s.buf.word.extractLsb' 4 12).toInt : Rat) * (625 / 10000) ∧
    t.intPart = ⌊t.value⌋ ∧ 0 ≤ t.fracPart ∧ t.fracPart ≤ 15 ∧ t.value = t.intPart + t.fracPart * (625 / 10000))

/-- spec/10_state.md section 4 (R23): what a consumer observes. DECODE of the registers when a complete frame is held,
and otherwise `none`, from `result` and from each of the eleven observations; the pins carry DECODE of the registers
at every moment. That an observation with no frame completes in a next state, and that the host's last answer is held
in `lastRead`, is the model's choice (assumption 4). -/
def Obligations.NoResultWithoutCompleteFrame : Prop :=
  (∀ s : State, s.cnt = 4 → s.result = some (decodeFrame s.buf)) ∧
  (∀ s : State, s.cnt.val < 4 → s.result = none ∧
    ∀ op : FrameOp, exec (decodeFrameOp op) s = .next { s with lastRead := none }) ∧
  (∀ (s : State) (outW : Nat), outWidthWellFormed outW = true →
    (s.pins outW).tcRaw.toInt = (decodeFrame s.buf).tcRaw ∧ (s.pins outW).intRaw.toInt = (decodeFrame s.buf).intRaw ∧
    (s.pins outW).fault = (decodeFrame s.buf).fault ∧ (s.pins outW).faultD16 = (decodeFrame s.buf).faultD16 ∧
    (s.pins outW).scvFault = (decodeFrame s.buf).scvFault ∧ (s.pins outW).scgFault = (decodeFrame s.buf).scgFault ∧
    (s.pins outW).ocFault = (decodeFrame s.buf).ocFault ∧
    (s.pins outW).sensorFault = (decodeFrame s.buf).sensorFault)

/-- R39. Reading has no side effects: any sequence of observations leaves every register, the input and all the pins
as they were, and each observation answers the same value after them as before. -/
def Obligations.ObservingChangesNothing : Prop :=
  ∀ (ops : List FrameOp) (s : State),
    ∃ t : State, runInstrs (ops.map decodeFrameOp) s = .next t ∧
      t.buf = s.buf ∧ t.cnt = s.cnt ∧ t.ovr = s.ovr ∧ t.input = s.input ∧ t.freeNext = s.freeNext ∧
      (∀ outW : Nat, t.pins outW = s.pins outW) ∧ t.result = s.result ∧
      ∀ op : FrameOp, exec (decodeFrameOp op) t = exec (decodeFrameOp op) s

/-! ### Laws of the decoded frame -/

/-- The table of spec/40_decode.md (R62, an inference the spec marks as its own). Each output depends on exactly the
frame bits of its row: flipping any other bit leaves what it answers, and for each bit of the row there is a frame on
which flipping it changes what it answers. -/
def Obligations.OutputsReadExactlyTheirBits : Prop :=
  ∀ (s : State) (op : FrameOp) (k : Nat), k < 32 →
    (op.reads.getLsbD k = false → ∀ w : FrameWord,
      answer (decodeFrameOp op) (s.holdFrame (w ^^^ (1#32 <<< k))) = answer (decodeFrameOp op) (s.holdFrame w)) ∧
    (op.reads.getLsbD k = true → ∃ w : FrameWord,
      answer (decodeFrameOp op) (s.holdFrame (w ^^^ (1#32 <<< k))) ≠ answer (decodeFrameOp op) (s.holdFrame w))

/-- R54. The reserved bits D17 and D3 change nothing in `result` and nothing on the pins. -/
def Obligations.ReservedBitsChangeNothing : Prop :=
  ∀ (s : State) (w : FrameWord) (d17 d3 : Bool),
    let flipped := w ^^^ (if d17 then 0x00020000#32 else 0#32) ^^^ (if d3 then 0x00000008#32 else 0#32)
    (s.holdFrame flipped).result = (s.holdFrame w).result ∧
      ∀ outW : Nat, (s.holdFrame flipped).pins outW = (s.holdFrame w).pins outW

/-- The ranges of the two fields, and that every value in them is produced by some frame (spec/41_temperature.md
section 2, R67, an inference the spec marks as its own). -/
def Obligations.TemperatureRangesAreFull : Prop :=
  (∀ b : FrameBuf, -8192 ≤ (decodeFrame b).tcRaw ∧ (decodeFrame b).tcRaw ≤ 8191 ∧
    -2048 ≤ (decodeFrame b).intRaw ∧ (decodeFrame b).intRaw ≤ 2047) ∧
  (∀ v u : Int, tcRawWellFormed v = true → intRawWellFormed u = true →
    ∃ b : FrameBuf, (decodeFrame b).tcRaw = v ∧ (decodeFrame b).intRaw = u)

/-- The sign law of both fields (spec/41_temperature.md section 2, R68, an inference the spec marks as its own). -/
def Obligations.SignBitsDecideSigns : Prop :=
  ∀ b : FrameBuf,
    ((decodeFrame b).tcRaw < 0 ↔ b.word.getLsbD 31 = true) ∧ b.word.getLsbD 31 = b.b0.getLsbD 7 ∧
    (decodeFrame b).tcRaw = (b.word.extractLsb' 18 14).toNat - 16384 * (if b.word.getLsbD 31 then 1 else 0) ∧
    ((decodeFrame b).intRaw < 0 ↔ b.word.getLsbD 15 = true) ∧ b.word.getLsbD 15 = b.b2.getLsbD 7 ∧
    (decodeFrame b).intRaw = (b.word.extractLsb' 4 12).toNat - 4096 * (if b.word.getLsbD 15 then 1 else 0)

/-- The round trip: a value encoded into its field by the arithmetic of spec/41_temperature.md section 2 (R69, an
inference the spec marks as its own) is decoded to itself, whatever the other bits of the frame are. -/
def Obligations.FieldRoundTrip : Prop :=
  (∀ (v : Int) (x : Nat) (b2 b3 : Byte), tcRawWellFormed v = true → x < 4 →
    (decodeFrame ⟨BitVec.ofInt 8 (v % 16384 / 64), BitVec.ofInt 8 (v % 16384 % 64 * 4 + x), b2, b3⟩).tcRaw = v) ∧
  (∀ (v : Int) (y : Nat) (b0 b1 : Byte), intRawWellFormed v = true → y < 16 →
    (decodeFrame ⟨b0, b1, BitVec.ofInt 8 (v % 4096 / 16), BitVec.ofInt 8 (v % 4096 % 16 * 16 + y)⟩).intRaw = v)

/-- spec/41_temperature.md section 2 (R70, an inference the spec marks as its own). The three wrong readings of a half
and exactly where each agrees with the rule: the logical shift and the zero-extended field where the sign bit is 0,
the truncating division where the dropped bits are 0 or the sign bit is 0. -/
def Obligations.WrongShiftsAreTold : Prop :=
  (∀ hi lo : Byte,
    ((((lsr (half hi lo) 2).toNat : Int) = tcRawOf hi lo) ↔ hi.getLsbD 7 = false) ∧
    ((half hi lo).extractLsb' 2 14).toNat = (lsr (half hi lo) 2).toNat ∧
    (((half hi lo).toInt.tdiv 4 = tcRawOf hi lo) ↔ (hi.getLsbD 7 = false ∨ lo.extractLsb' 0 2 = 0#2))) ∧
  (∀ hi lo : Byte,
    ((((lsr (half hi lo) 4).toNat : Int) = intRawOf hi lo) ↔ hi.getLsbD 7 = false) ∧
    ((half hi lo).extractLsb' 4 12).toNat = (lsr (half hi lo) 4).toNat ∧
    (((half hi lo).toInt.tdiv 16 = intRawOf hi lo) ↔ (hi.getLsbD 7 = false ∨ lo.extractLsb' 0 4 = 0#4)))

/-- R73. The temperatures on the ports: at 16 bits the arithmetic shifts of the two halves themselves; at every
allowed width the sign-extended fields, with their upper bits all equal to the sign bit, the bare field in the low
bits, the same signed value, and every wider port their sign extension. -/
def Obligations.PortsCarrySignExtendedFields : Prop :=
  (∀ s : State,
    (s.pins 16).tcRaw = (s.buf.word.extractLsb' 16 16).sshiftRight 2 ∧
    (s.pins 16).intRaw = (s.buf.word.extractLsb' 0 16).sshiftRight 4) ∧
  (∀ (s : State) (outW : Nat), outWidthWellFormed outW = true →
    (s.pins outW).tcRaw = (s.buf.word.extractLsb' 18 14).signExtend outW ∧
    (s.pins outW).intRaw = (s.buf.word.extractLsb' 4 12).signExtend outW ∧
    (s.pins outW).tcRaw.toInt = (decodeFrame s.buf).tcRaw ∧ (s.pins outW).intRaw.toInt = (decodeFrame s.buf).intRaw ∧
    (∀ k, 13 ≤ k → k < outW → (s.pins outW).tcRaw.getLsbD k = s.buf.word.getLsbD 31) ∧
    (∀ k, 11 ≤ k → k < outW → (s.pins outW).intRaw.getLsbD k = s.buf.word.getLsbD 15) ∧
    (s.pins outW).tcRaw.setWidth 14 = s.buf.word.extractLsb' 18 14 ∧
    (s.pins outW).intRaw.setWidth 12 = s.buf.word.extractLsb' 4 12 ∧
    (∀ wider, outW ≤ wider → (s.pins wider).tcRaw = (s.pins outW).tcRaw.signExtend wider ∧
      (s.pins wider).intRaw = (s.pins outW).intRaw.signExtend wider))

/-- spec/42_faults.md section 3: the aggregate flag is the OR of the three specific bits on every frame (R80); a frame
is consistent when D16 is that OR, and the clauses on consistent and inconsistent frames are those of R82, an
inference the spec marks as its own. -/
def Obligations.FaultFlagsAgreeOnConsistentFrames : Prop :=
  ∀ b : FrameBuf,
    ((decodeFrame b).fault = true ↔
      (decodeFrame b).scvFault = true ∨ (decodeFrame b).scgFault = true ∨ (decodeFrame b).ocFault = true) ∧
    (consistentFrame b = true ↔
      b.word.getLsbD 16 = (b.word.getLsbD 2 || b.word.getLsbD 1 || b.word.getLsbD 0)) ∧
    (consistentFrame b = true →
      (decodeFrame b).faultD16 = (decodeFrame b).fault ∧ (decodeFrame b).fault = (decodeFrame b).sensorFault) ∧
    (consistentFrame b = false → b.word.getLsbD 16 = true →
      (decodeFrame b).fault = false ∧ (decodeFrame b).faultD16 = true ∧ (decodeFrame b).sensorFault = true) ∧
    (consistentFrame b = false → b.word.getLsbD 16 = false →
      (decodeFrame b).fault = true ∧ (decodeFrame b).faultD16 = false ∧ (decodeFrame b).sensorFault = true)

/-- The ranges and the steps of the two temperatures in degrees Celsius (spec/43_scaling.md, R87, an inference the
spec marks as its own). -/
def Obligations.DegreeRangesAndSteps : Prop :=
  ∀ b : FrameBuf,
    -2048 ≤ (tcDegOf (decodeFrame b).tcRaw).value ∧ (tcDegOf (decodeFrame b).tcRaw).value ≤ 204775 / 100 ∧
    (∃ n : Int, (tcDegOf (decodeFrame b).tcRaw).value = n * (25 / 100)) ∧
    -128 ≤ (intDegOf (decodeFrame b).intRaw).value ∧ (intDegOf (decodeFrame b).intRaw).value ≤ 1279375 / 10000 ∧
    (∃ n : Int, (intDegOf (decodeFrame b).intRaw).value = n * (625 / 10000))

/-- spec/43_scaling.md (R88, an inference the spec marks as its own). Two decimal places show the thermocouple
temperature exactly, and they are .00, .25, .50 or .75. -/
def Obligations.TwoDecimalPlacesAreExact : Prop :=
  ∀ b : FrameBuf,
    (tcDegOf (decodeFrame b).tcRaw).value * 100 = hundredthsOf (decodeFrame b).tcRaw ∧
    ((hundredthsOf (decodeFrame b).tcRaw).natAbs % 100 = 0 ∨ (hundredthsOf (decodeFrame b).tcRaw).natAbs % 100 = 25 ∨
      (hundredthsOf (decodeFrame b).tcRaw).natAbs % 100 = 50 ∨ (hundredthsOf (decodeFrame b).tcRaw).natAbs % 100 = 75)

/-- R33. The byte order: byte 0 is the most significant byte of the frame word, and each half is big-endian. -/
def Obligations.FrameWordIsBigEndian : Prop :=
  ∀ b : FrameBuf,
    b.word.toNat = b.b0.toNat * 2 ^ 24 + b.b1.toNat * 2 ^ 16 + b.b2.toNat * 2 ^ 8 + b.b3.toNat ∧
    b.upper.toNat = 256 * b.b0.toNat + b.b1.toNat ∧ b.lower.toNat = 256 * b.b2.toNat + b.b3.toNat ∧
    b.upper = b.word.extractLsb' 16 16 ∧ b.lower = b.word.extractLsb' 0 16

/-- spec/20_memory.md section 2: the byte at index `i` is bits `D(31-8i)` to `D(24-8i)` of the frame, and a frame word
and its four bytes determine each other. -/
def Obligations.BytesAreSlicesOfTheFrame : Prop :=
  (∀ (b : FrameBuf) (i : Fin 4), b.get i = b.word.extractLsb' (24 - 8 * i.val) 8) ∧
  (∀ w : FrameWord, (FrameBuf.ofWord w).word = w) ∧ (∀ b : FrameBuf, FrameBuf.ofWord b.word = b)

/-- spec/00_scope.md section 4: `MemRead(a, n)` is defined for `a + n <= 4` and for nothing else; wherever it is
defined, byte `k` of it from the top is `buf[a+k]`; the read of all four bytes is the frame word, the reads of two are
its halves, and the read of one is its register. -/
def Obligations.MemReadIsBigEndian : Prop :=
  ∀ b : FrameBuf,
    (∀ a n : Nat, (b.memRead a n).isSome = true ↔ a + n ≤ 4) ∧
    (∀ (a n : Nat) (v : BitVec (8 * n)), b.memRead a n = some v →
      ∀ (k : Nat) (_ : k < n) (h : a + k < 4), v.extractLsb' (8 * (n - 1 - k)) 8 = b.get ⟨a + k, h⟩) ∧
    b.memRead 0 4 = some b.word ∧ b.memRead 0 2 = some b.upper ∧ b.memRead 2 2 = some b.lower ∧
    ∀ i : Fin 4, b.memRead i.val 1 = some (b.get i)

/-! ### The machine as a whole -/

/-- The frame theorem (spec/44_commands.md section 3, R94, an inference the spec marks as its own): from any state, a
boundary and four bytes, with any IDLEs among them, end with a complete frame, no overrun, and the result DECODE of
the four bytes; and the result stays under every further IDLE and BYTE. The model proves it of every state, not only
of the states reachable after a RESET. -/
def Obligations.FrameTheorem : Prop :=
  ∀ (s : State) (boundary : Instr) (b0 b1 b2 b3 : Byte) (is more : List Instr),
    boundary = .start ∨ boundary = .reset →
    is.filter (· ≠ .idle) = [boundary, .byte b0, .byte b1, .byte b2, .byte b3] →
    (∀ i ∈ more, i = .idle ∨ ∃ din, i = .byte din) →
    ∃ t u : State, runInstrs is s = .next t ∧ t.cnt = 4 ∧ t.valid = true ∧ t.ovr = false ∧
      t.result = some (decodeFrame ⟨b0, b1, b2, b3⟩) ∧
      runInstrs more t = .next u ∧ u.result = t.result

/-- Every step keeps the invariant that an overrun is recorded only while a complete frame is held, from every state
in which it holds and not only from the reachable ones (spec/10_state.md section 7). -/
def Obligations.OverrunImpliesCompleteFrameKept : Prop :=
  ∀ s : State, s.Inv → ∀ t : State, step s = .next t → t.Inv

/-- The invariant that every step keeps holds at reset (spec/10_state.md section 7). -/
def Obligations.OverrunImpliesCompleteFrameAtReset : Prop :=
  State.reset.Inv

/-- spec/10_state.md section 7, for one operation from any state: what the machine does is what the list of accepted
bytes and the flag do. -/
def Obligations.MachineRefinesAcceptedBytes : Prop :=
  ∀ (i : Instr) (s : State), ∃ t : State, exec i s = .next t ∧
    t.accepted = s.accepted.after i ∧ t.result = t.accepted.result ∧ t.accepted.bytes.length = t.cnt.val

/-- spec/10_state.md section 7 (R30, an inference the spec marks as its own). After any sequence of operations that
begins at a boundary: the counter is at most 4 and says how many bytes were accepted; those bytes are, in order, the
first registers; the result is a function of them alone; an overrun means that the frame is complete; and the list of
bytes with the flag says all of it. -/
def Obligations.InvariantsOfReachableStates : Prop :=
  ∀ (s : State) (boundary : Instr) (is : List Instr), boundary = .start ∨ boundary = .reset →
    ∃ t : State, runInstrs (boundary :: is) s = .next t ∧ t.cnt.val ≤ 4 ∧
      t.accepted = is.foldl Accepted.after ⟨[], false⟩ ∧
      (is.foldl Accepted.after ⟨[], false⟩).bytes.length = t.cnt.val ∧
      (∀ j : Fin 4, j.val < t.cnt.val →
        (is.foldl Accepted.after ⟨[], false⟩).bytes[j.val]? = some (t.buf.get j)) ∧
      t.result = (is.foldl Accepted.after ⟨[], false⟩).result ∧ t.Inv

/-- spec/10_state.md section 7 (R29, an inference the spec marks as its own). Two states that differ only in bytes not
yet delivered (and in the free values still to be drawn) give the same observation, and go on doing so after every
sequence of operations and every step. In particular the bytes RESET leaves are never observed. -/
def Obligations.UnseenBytesAreNeverObserved : Prop :=
  (∀ (s t : State) (is : List Instr), s.sameSeen t → ∃ s' t' : State,
    runInstrs is s = .next s' ∧ runInstrs is t = .next t' ∧ s'.sameSeen t' ∧ s'.observation = t'.observation) ∧
  (∀ s t : State, s.sameSeen t → ∃ s' t' : State,
    step s = .next s' ∧ step t = .next t' ∧ s'.sameSeen t' ∧ s'.observation = t'.observation) ∧
  (∀ (s : State) (bytes bytes' : FrameBuf) (free free' : Nat) (is : List Instr),
    observationAfter is { s with buf := bytes, cnt := 0, ovr := false, freeNext := free } =
      observationAfter is { s with buf := bytes', cnt := 0, ovr := false, freeNext := free' })

/-- spec/70_reset_and_hazards.md section 1 (R117, an inference the spec marks as its own). Where a RESET stands in a
sequence of operations, a START may stand: no observation tells them apart; and START keeps the byte registers. -/
def Obligations.ResetAndStartObservedAlike : Prop :=
  (∀ (s : State) (before after : List Instr),
    observationAfter (before ++ .reset :: after) s = observationAfter (before ++ .start :: after) s ∧
      (observationAfter (before ++ .start :: after) s).isSome = true) ∧
  (∀ s : State, ∃ t u : State, exec .reset s = .next t ∧ exec .start s = .next u ∧
    t.cnt = 0 ∧ u.cnt = 0 ∧ t.ovr = false ∧ u.ovr = false ∧ u.buf = s.buf)

/-- A host that keeps its duties (no fifth byte without a boundary, outputs looked at only when `valid` is 1;
spec/60_exceptions.md section 6, spec/70_reset_and_hazards.md section 2) never sees an overrun, and each of its
observations is answered with a value. -/
def Obligations.DutifulHostIsAlwaysAnswered : Prop :=
  ∀ (s : State) (is : List Instr), s.ovr = false → hostObeys s.cnt.val is = true →
    (∃ t : State, runInstrs is s = .next t ∧ t.ovr = false) ∧
    ∀ (before after : List Instr) (op : FrameOp), is = before ++ decodeFrameOp op :: after →
      ∃ u : State, runInstrs before s = .next u ∧ u.valid = true ∧ u.ovr = false ∧
        (answer (decodeFrameOp op) u).isSome = true

/-- spec/60_exceptions.md section 5 (R108): one read. START first; on a frame its four bytes, after which the result
is DECODE of them; on a transport error no byte, after which there is no result, whatever was held before, and the
error is reported without consulting the block. That a report is data is the model's form (assumption 14). -/
def Obligations.ReadMapsOntoCommands : Prop :=
  (∀ (s : State) (f : FrameBuf), ∃ t : State, runInstrs (readCommands (.frame f)) s = .next t ∧
    t.valid = true ∧ t.ovr = false ∧ t.result = some (decodeFrame f)) ∧
  (∀ (s : State) (e : TransportError), ∃ t : State, runInstrs (readCommands (.error e)) s = .next t ∧
    t.valid = false ∧ t.result = none ∧ ∀ u : State, callerReport (.error e) u = .transport e) ∧
  (∀ r : BusResult, (readCommands r).head? = some .start) ∧
  (∀ f : FrameBuf, readCommands (.frame f) = [.start, .byte f.b0, .byte f.b1, .byte f.b2, .byte f.b3]) ∧
  (∀ e : TransportError, readCommands (.error e) = [.start] ∧ bytesIn (readCommands (.error e)) = 0)

/-- spec/60_exceptions.md section 6 (R110, R111) and spec/43_scaling.md (R88): the fault gate. A temperature is let
through only with a complete frame and all four fault bits 0, it is then the thermocouple temperature; the caller
reports no temperature otherwise, and with a complete frame that has one of the four bits set it reports the fault and
exits non-zero. That a report is data, a temperature in hundredths of a degree, is the model's form (assumption 14).
-/
def Obligations.FaultGateWithholdsTemperature : Prop :=
  ∀ s : State,
    (∀ t : Fixed, s.gatedTemperature = some t ↔
      s.cnt = 4 ∧ s.buf.word &&& 0x00010007#32 = 0#32 ∧ t = tcDegOf (tcRawOf s.buf.b0 s.buf.b1)) ∧
    (∀ (f : FrameBuf) (h : Int), callerReport (.frame f) s = .temperature h ↔
      s.cnt = 4 ∧ s.buf.word &&& 0x00010007#32 = 0#32 ∧ h = 25 * tcRawOf s.buf.b0 s.buf.b1) ∧
    (∀ f : FrameBuf, s.cnt = 4 → s.buf.word &&& 0x00010007#32 ≠ 0#32 →
      callerReport (.frame f) s = .sensorFault (decodeFrame s.buf) ∧ (callerReport (.frame f) s).exitsZero = false)
end

