-- ==== Sys2Proof/Laws/Encoding.lean ====
section
/-!
SUPPORT. The bits of the canonical words (R47, R48).
-/

namespace Sys2Proof

theorem getLsbD_byteWord (din : Byte) (i : Nat) :
    (byteWord din).getLsbD i = if i < 8 then din.getLsbD i else (0x1#3).getLsbD (i - 8) :=
  BitVec.getLsbD_append (x := 0x1#3) (y := din)

theorem rstBit_byteWord (din : Byte) : rstBit (byteWord din) = false :=
  getLsbD_byteWord din 10

theorem startBit_byteWord (din : Byte) : startBit (byteWord din) = false :=
  getLsbD_byteWord din 9

theorem bvBit_byteWord (din : Byte) : bvBit (byteWord din) = true :=
  getLsbD_byteWord din 8

theorem dinBits_byteWord (din : Byte) : dinBits (byteWord din) = din := by
  apply BitVec.eq_of_getLsbD_eq
  intro i hi
  simp [dinBits, getLsbD_byteWord, hi]

end Sys2Proof
end

