-- ==== Sys2Proof/Laws/State.lean ====
section
/-!
SUPPORT. One lemma for each field of State and each update of it, and the read-after-write laws of the frame buffer.
-/

namespace Sys2Proof.Machine

@[simp] theorem State.raiseOverrun_buf (s : State) :
    s.raiseOverrun.buf = s.buf := rfl
@[simp] theorem State.raiseOverrun_cnt (s : State) :
    s.raiseOverrun.cnt = s.cnt := rfl
@[simp] theorem State.raiseOverrun_ovr (s : State) :
    s.raiseOverrun.ovr = true := rfl
@[simp] theorem State.raiseOverrun_input (s : State) :
    s.raiseOverrun.input = s.input := rfl
@[simp] theorem State.raiseOverrun_lastRead (s : State) :
    s.raiseOverrun.lastRead = s.lastRead := rfl
@[simp] theorem State.raiseOverrun_freeNext (s : State) :
    s.raiseOverrun.freeNext = s.freeNext := rfl

@[simp] theorem State.frameBoundary_buf (s : State) :
    s.frameBoundary.buf = s.buf := rfl
@[simp] theorem State.frameBoundary_cnt (s : State) :
    s.frameBoundary.cnt = 0 := rfl
@[simp] theorem State.frameBoundary_ovr (s : State) :
    s.frameBoundary.ovr = false := rfl
@[simp] theorem State.frameBoundary_input (s : State) :
    s.frameBoundary.input = s.input := rfl
@[simp] theorem State.frameBoundary_lastRead (s : State) :
    s.frameBoundary.lastRead = s.lastRead := rfl
@[simp] theorem State.frameBoundary_freeNext (s : State) :
    s.frameBoundary.freeNext = s.freeNext := rfl

@[simp] theorem State.drawBytes_buf (s : State) :
    s.drawBytes.buf = ⟨Config.freeByte s.freeNext, Config.freeByte (s.freeNext + 1), Config.freeByte (s.freeNext + 2),
      Config.freeByte (s.freeNext + 3)⟩ := rfl
@[simp] theorem State.drawBytes_cnt (s : State) :
    s.drawBytes.cnt = s.cnt := rfl
@[simp] theorem State.drawBytes_ovr (s : State) :
    s.drawBytes.ovr = s.ovr := rfl
@[simp] theorem State.drawBytes_input (s : State) :
    s.drawBytes.input = s.input := rfl
@[simp] theorem State.drawBytes_lastRead (s : State) :
    s.drawBytes.lastRead = s.lastRead := rfl
@[simp] theorem State.drawBytes_freeNext (s : State) :
    s.drawBytes.freeNext = s.freeNext + 4 := rfl

@[simp] theorem State.acceptByte_buf (s : State) (din : Byte) (h : s.cnt.val < 4) :
    (s.acceptByte din h).buf = s.buf.set ⟨s.cnt.val, h⟩ din := rfl
@[simp] theorem State.acceptByte_cnt (s : State) (din : Byte) (h : s.cnt.val < 4) :
    (s.acceptByte din h).cnt = ⟨s.cnt.val + 1, Nat.succ_lt_succ h⟩ := rfl
@[simp] theorem State.acceptByte_ovr (s : State) (din : Byte) (h : s.cnt.val < 4) :
    (s.acceptByte din h).ovr = s.ovr := rfl
@[simp] theorem State.acceptByte_input (s : State) (din : Byte) (h : s.cnt.val < 4) :
    (s.acceptByte din h).input = s.input := rfl
@[simp] theorem State.acceptByte_lastRead (s : State) (din : Byte) (h : s.cnt.val < 4) :
    (s.acceptByte din h).lastRead = s.lastRead := rfl
@[simp] theorem State.acceptByte_freeNext (s : State) (din : Byte) (h : s.cnt.val < 4) :
    (s.acceptByte din h).freeNext = s.freeNext := rfl

@[simp] theorem State.observe_buf (s : State) (f : FrameBuf → Output) :
    (s.observe f).buf = s.buf := rfl
@[simp] theorem State.observe_cnt (s : State) (f : FrameBuf → Output) :
    (s.observe f).cnt = s.cnt := rfl
@[simp] theorem State.observe_ovr (s : State) (f : FrameBuf → Output) :
    (s.observe f).ovr = s.ovr := rfl
@[simp] theorem State.observe_input (s : State) (f : FrameBuf → Output) :
    (s.observe f).input = s.input := rfl
@[simp] theorem State.observe_lastRead (s : State) (f : FrameBuf → Output) :
    (s.observe f).lastRead = if s.valid then some (f s.buf) else none := rfl
@[simp] theorem State.observe_freeNext (s : State) (f : FrameBuf → Output) :
    (s.observe f).freeNext = s.freeNext := rfl

@[simp] theorem State.takeInput_buf (s : State) :
    s.takeInput.buf = s.buf := rfl
@[simp] theorem State.takeInput_cnt (s : State) :
    s.takeInput.cnt = s.cnt := rfl
@[simp] theorem State.takeInput_ovr (s : State) :
    s.takeInput.ovr = s.ovr := rfl
@[simp] theorem State.takeInput_input (s : State) :
    s.takeInput.input = s.input.tail := rfl
@[simp] theorem State.takeInput_lastRead (s : State) :
    s.takeInput.lastRead = s.lastRead := rfl
@[simp] theorem State.takeInput_freeNext (s : State) :
    s.takeInput.freeNext = s.freeNext := rfl

@[simp] theorem State.holdFrame_buf (s : State) (w : FrameWord) :
    (s.holdFrame w).buf = FrameBuf.ofWord w := rfl
@[simp] theorem State.holdFrame_cnt (s : State) (w : FrameWord) :
    (s.holdFrame w).cnt = 4 := rfl
@[simp] theorem State.holdFrame_ovr (s : State) (w : FrameWord) :
    (s.holdFrame w).ovr = s.ovr := rfl
@[simp] theorem State.holdFrame_input (s : State) (w : FrameWord) :
    (s.holdFrame w).input = s.input := rfl
@[simp] theorem State.holdFrame_lastRead (s : State) (w : FrameWord) :
    (s.holdFrame w).lastRead = s.lastRead := rfl
@[simp] theorem State.holdFrame_freeNext (s : State) (w : FrameWord) :
    (s.holdFrame w).freeNext = s.freeNext := rfl

@[simp] theorem State.present_buf (s : State) (e : HostEvent) :
    (s.present e).buf = s.buf := rfl
@[simp] theorem State.present_cnt (s : State) (e : HostEvent) :
    (s.present e).cnt = s.cnt := rfl
@[simp] theorem State.present_ovr (s : State) (e : HostEvent) :
    (s.present e).ovr = s.ovr := rfl
@[simp] theorem State.present_input (s : State) (e : HostEvent) :
    (s.present e).input = e :: s.input := rfl
@[simp] theorem State.present_lastRead (s : State) (e : HostEvent) :
    (s.present e).lastRead = s.lastRead := rfl
@[simp] theorem State.present_freeNext (s : State) (e : HostEvent) :
    (s.present e).freeNext = s.freeNext := rfl

@[simp] theorem FrameBuf.get_set_same (b : FrameBuf) (i : Fin 4) (v : Byte) : (b.set i v).get i = v := by
  fin_cases i <;> rfl

theorem FrameBuf.get_set_other (b : FrameBuf) {i j : Fin 4} (v : Byte) (h : j ≠ i) : (b.set i v).get j = b.get j := by
  revert h
  fin_cases i <;> fin_cases j <;> first | exact fun h => absurd rfl h | exact fun _ => rfl

theorem FrameBuf.ext_get {b c : FrameBuf} (h : ∀ i, b.get i = c.get i) : b = c := by
  cases b
  cases c
  simpa [FrameBuf.get] using And.intro (h 0) (And.intro (h 1) (And.intro (h 2) (h 3)))

theorem State.valid_iff (s : State) : s.valid = true ↔ s.cnt = 4 := by
  simp [State.valid]

theorem State.not_valid_iff (s : State) : s.valid = false ↔ s.cnt.val < 4 := by
  have h := s.cnt.isLt
  simp only [State.valid, beq_eq_false_iff_ne, ne_eq, Fin.ext_iff]
  exact ⟨fun hn => by have : s.cnt.val ≠ 4 := hn; omega, fun hn => by show s.cnt.val ≠ 4; omega⟩

theorem State.result_of_valid {s : State} (h : s.valid = true) : s.result = some (decodeFrame s.buf) := by
  simp [State.result, h]

theorem State.result_of_not_valid {s : State} (h : s.valid = false) : s.result = none := by
  simp [State.result, h]

@[simp] theorem State.pins_valid (s : State) (outW : Nat) :
    (s.pins outW).valid = s.valid := rfl
@[simp] theorem State.pins_ovr (s : State) (outW : Nat) :
    (s.pins outW).ovr = s.ovr := rfl
@[simp] theorem State.pins_tcRaw (s : State) (outW : Nat) :
    (s.pins outW).tcRaw = tcPortAt outW s.buf := rfl
@[simp] theorem State.pins_intRaw (s : State) (outW : Nat) :
    (s.pins outW).intRaw = intPortAt outW s.buf := rfl
@[simp] theorem State.pins_fault (s : State) (outW : Nat) :
    (s.pins outW).fault = faultOf s.buf.b3 := rfl
@[simp] theorem State.pins_faultD16 (s : State) (outW : Nat) :
    (s.pins outW).faultD16 = faultD16Of s.buf.b1 := rfl
@[simp] theorem State.pins_scvFault (s : State) (outW : Nat) :
    (s.pins outW).scvFault = scvOf s.buf.b3 := rfl
@[simp] theorem State.pins_scgFault (s : State) (outW : Nat) :
    (s.pins outW).scgFault = scgOf s.buf.b3 := rfl
@[simp] theorem State.pins_ocFault (s : State) (outW : Nat) :
    (s.pins outW).ocFault = ocOf s.buf.b3 := rfl
@[simp] theorem State.pins_sensorFault (s : State) (outW : Nat) :
    (s.pins outW).sensorFault = sensorFaultOf s.buf.b1 s.buf.b3 := rfl

end Sys2Proof.Machine
end

