-- ==== Sys2Proof/Laws/Exec.lean ====
section
/-!
SUPPORT. What each operation can do, once: the equation of `exec` for each constructor, and the cases of BYTE.
-/

namespace Sys2Proof.Machine

theorem exec_reset (s : State) : exec .reset s = .next s.drawBytes.frameBoundary := rfl

theorem exec_start (s : State) : exec .start s = .next s.frameBoundary := rfl

theorem exec_byte_accepted (din : Byte) {s : State} (h : s.cnt.val < 4) :
    exec (.byte din) s = .next (s.acceptByte din h) :=
  dif_pos h

theorem exec_byte_overrun (din : Byte) {s : State} (h : ¬ s.cnt.val < 4) :
    exec (.byte din) s = .next s.raiseOverrun :=
  dif_neg h

theorem exec_idle (s : State) : exec .idle s = .next s := rfl

/-- Every FRAME operation is one observation: it answers a next state that differs in `lastRead` alone. -/
theorem exec_frameOp (op : FrameOp) (s : State) :
    ∃ f : FrameBuf → Output, exec (decodeFrameOp op) s = .next (s.observe f) := by
  cases op <;> exact ⟨_, rfl⟩

/-- The inversion of a step of BYTE: it is accepted or it is an overrun. -/
theorem exec_byte_cases {din : Byte} {s t : State} (h : exec (.byte din) s = .next t) :
    (∃ hc : s.cnt.val < 4, t = s.acceptByte din hc) ∨ (¬ s.cnt.val < 4 ∧ t = s.raiseOverrun) := by
  by_cases hc : s.cnt.val < 4
  · rw [exec_byte_accepted din hc] at h
    injection h with h
    exact .inl ⟨hc, h.symm⟩
  · rw [exec_byte_overrun din hc] at h
    injection h with h
    exact .inr ⟨hc, h.symm⟩

/-- Every operation has a next state (R89, R124). -/
theorem exec_total (i : Instr) (s : State) : ∃ t : State, exec i s = .next t := by
  cases i
  case byte din =>
    by_cases h : s.cnt.val < 4
    · exact ⟨_, exec_byte_accepted din h⟩
    · exact ⟨_, exec_byte_overrun din h⟩
  all_goals exact ⟨_, rfl⟩

theorem next_inj {s t : State} (h : (.next s : Host.Outcome State Fault Refusal) = .next t) : s = t := by
  injection h

/-- Everything an operation can do, once. -/
theorem exec_cases {i : Instr} {s t : State} (h : exec i s = .next t) :
    (i = .reset ∧ t = s.drawBytes.frameBoundary) ∨
      (i = .start ∧ t = s.frameBoundary) ∨
      (∃ din, ∃ hc : s.cnt.val < 4, i = .byte din ∧ t = s.acceptByte din hc) ∨
      (∃ din, ¬ s.cnt.val < 4 ∧ i = .byte din ∧ t = s.raiseOverrun) ∨
      (i = .idle ∧ t = s) ∨
      (∃ op f, i = decodeFrameOp op ∧ t = s.observe f) := by
  have look : ∀ {op : FrameOp} {f : FrameBuf → Output}, .next (s.observe f) = exec (decodeFrameOp op) s →
      i = decodeFrameOp op → ∃ op f, i = decodeFrameOp op ∧ t = s.observe f := by
    intro op f hf hi
    subst hi
    exact ⟨op, f, rfl, next_inj (h.symm.trans hf.symm)⟩
  cases i
  case reset => exact .inl ⟨rfl, (next_inj h).symm⟩
  case start => exact .inr (.inl ⟨rfl, (next_inj h).symm⟩)
  case byte din =>
    rcases exec_byte_cases h with ⟨hc, ht⟩ | ⟨hc, ht⟩
    · exact .inr (.inr (.inl ⟨din, hc, rfl, ht⟩))
    · exact .inr (.inr (.inr (.inl ⟨din, hc, rfl, ht⟩)))
  case idle => exact .inr (.inr (.inr (.inr (.inl ⟨rfl, (next_inj h).symm⟩))))
  case decode => exact .inr (.inr (.inr (.inr (.inr (look (op := .decode) rfl rfl)))))
  case tcraw => exact .inr (.inr (.inr (.inr (.inr (look (op := .tcraw) rfl rfl)))))
  case intraw => exact .inr (.inr (.inr (.inr (.inr (look (op := .intraw) rfl rfl)))))
  case fd16 => exact .inr (.inr (.inr (.inr (.inr (look (op := .fd16) rfl rfl)))))
  case scv => exact .inr (.inr (.inr (.inr (.inr (look (op := .scv) rfl rfl)))))
  case scg => exact .inr (.inr (.inr (.inr (.inr (look (op := .scg) rfl rfl)))))
  case oc => exact .inr (.inr (.inr (.inr (.inr (look (op := .oc) rfl rfl)))))
  case fault => exact .inr (.inr (.inr (.inr (.inr (look (op := .fault) rfl rfl)))))
  case sfault => exact .inr (.inr (.inr (.inr (.inr (look (op := .sfault) rfl rfl)))))
  case tcdeg => exact .inr (.inr (.inr (.inr (.inr (look (op := .tcdeg) rfl rfl)))))
  case intdeg => exact .inr (.inr (.inr (.inr (.inr (look (op := .intdeg) rfl rfl)))))

/-- A step is the execution of the next operation after its event is taken off the input. -/
theorem step_eq (s : State) : step s = exec s.nextInstr s.takeInput := rfl

theorem nextInstr_cons {s : State} {e : HostEvent} {rest : List HostEvent} (h : s.input = e :: rest) :
    s.nextInstr = decodeEvent e := by
  simp [State.nextInstr, State.nextEvent, h]

theorem nextInstr_nil {s : State} (h : s.input = []) : s.nextInstr = .idle := by
  simp [State.nextInstr, State.nextEvent, h, decodeEvent, decodeCommand, idleWord, rstBit, startBit, bvBit]

end Sys2Proof.Machine
end

