-- ==== Sys2Proof/Laws/Operands.lean ====
section
/-!
SUPPORT. The bits of the halves and of the frame word in terms of the bytes (R33, R34), and back.
-/

namespace Sys2Proof.Machine

theorem getLsbD_half (hi lo : Byte) (i : Nat) :
    (half hi lo).getLsbD i = if i < 8 then lo.getLsbD i else hi.getLsbD (i - 8) :=
  BitVec.getLsbD_append (x := hi) (y := lo)

theorem getLsbD_word (b : FrameBuf) (i : Nat) :
    b.word.getLsbD i =
      if i < 8 then b.b3.getLsbD i
      else if i < 16 then b.b2.getLsbD (i - 8)
      else if i < 24 then b.b1.getLsbD (i - 16)
      else b.b0.getLsbD (i - 24) := by
  have h3 : b.word.getLsbD i = if i < 8 then b.b3.getLsbD i else (b.b0 ++ b.b1 ++ b.b2).getLsbD (i - 8) :=
    BitVec.getLsbD_append (x := b.b0 ++ b.b1 ++ b.b2) (y := b.b3)
  rw [h3, BitVec.getLsbD_append, BitVec.getLsbD_append]
  split_ifs <;> first | rfl | omega

theorem ofWord_word (b : FrameBuf) : FrameBuf.ofWord b.word = b := by
  cases b
  simp only [FrameBuf.ofWord, FrameBuf.mk.injEq]
  refine ⟨?_, ?_, ?_, ?_⟩ <;>
    · apply BitVec.eq_of_getLsbD_eq
      intro i hi
      rw [BitVec.getLsbD_extractLsb', getLsbD_word, decide_eq_true hi, Bool.true_and]
      split_ifs <;> first | omega | (congr 1; omega)

theorem word_ofWord (w : FrameWord) : (FrameBuf.ofWord w).word = w := by
  apply BitVec.eq_of_getLsbD_eq
  intro i hi
  rw [getLsbD_word]
  simp only [FrameBuf.ofWord, BitVec.getLsbD_extractLsb']
  split_ifs <;>
    · rw [decide_eq_true (by omega), Bool.true_and]
      congr 1
      omega

/-- The thermocouple field lies where the parameters of R5 say. -/
theorem tcField_eq_frameBits (w : FrameWord) : tcField w = frameBits w Config.tcLsb Config.tcBits := rfl

/-- The internal field lies where the parameters of R5 say. -/
theorem intField_eq_frameBits (w : FrameWord) : intField w = frameBits w Config.intLsb Config.intBits := rfl

end Sys2Proof.Machine
end

