-- ==== Sys2Proof/Laws/PerInstr.lean ====
section
/-!
SUPPORT. A law of the encoder, one lemma for each operation: a command encodes to a canonical word (R48), and an
observation encodes to the output it looks at (R52).
-/

namespace Sys2Proof.Laws.CanonicalEncoding

/-- The encoding of the operation is its own canonical form: no don't-care bit of a command word is set. -/
def Statement (i : Instr) : Prop :=
  match encode i with
  | .command c => canonicalWord c = c
  | .observe op => decodeFrameOp op = i

theorem reset : Statement .reset := rfl

theorem start : Statement .start := rfl

theorem byte (din : Byte) : Statement (.byte din) := by
  show canonicalWord (byteWord din) = byteWord din
  simp [canonicalWord, rstBit_byteWord, startBit_byteWord, bvBit_byteWord]

theorem idle : Statement .idle := rfl

theorem decode : Statement .decode := rfl

theorem tcraw : Statement .tcraw := rfl

theorem intraw : Statement .intraw := rfl

theorem fd16 : Statement .fd16 := rfl

theorem scv : Statement .scv := rfl

theorem scg : Statement .scg := rfl

theorem oc : Statement .oc := rfl

theorem fault : Statement .fault := rfl

theorem sfault : Statement .sfault := rfl

theorem tcdeg : Statement .tcdeg := rfl

theorem intdeg : Statement .intdeg := rfl

end Sys2Proof.Laws.CanonicalEncoding
end

