-- ==== Sys2Proof/Tests/Slice0.lean ====
section
/-!
SUPPORT. Tests. Every expected value stands in spec/95_test_vectors.md or in the rule named beside it. The second half
shows, for each statement of Certificates/Slice0/Obligations.lean that has hypotheses, states and operands that meet them.
-/

namespace Sys2Proof.Tests

open Sys2Proof.Machine

/-- A state with the given registers, counter and flag; the host has presented and read nothing. -/
def stateOf (b0 b1 b2 b3 : Byte) (cnt : Fin 5) (ovr : Bool) : State :=
  { State.reset with buf := ⟨b0, b1, b2, b3⟩, cnt := cnt, ovr := ovr }

/-- The state an outcome leads to, if any. -/
def nextOf (o : Host.Outcome State Fault Refusal) : Option State :=
  match o with
  | .next s => some s
  | .fault _ => none
  | .refused _ => none

/-- Registers, counter and flag after an operation. -/
def blockAfter (i : Instr) (s : State) : Option (List Byte × Nat × Bool) :=
  (nextOf (exec i s)).map fun t => (t.buf.toList, t.cnt.val, t.ovr)

/-! ### Well-formedness: one ill-formed term for each check -/

theorem test_wellFormed_byte : (Instr.byte 0xFF#8).wellFormed = true := by decide

theorem test_frame_of_three_bytes_refused : rawFrameWellFormed [0x7F#8, 0xFC#8, 0x00#8] = false := by decide

theorem test_memRead_past_the_end_refused : memReadWellFormed 2 3 = false := by decide

theorem test_memRead_past_the_end_is_none : (FrameBuf.mk 1#8 2#8 3#8 4#8).memRead 2 3 = none := by decide

theorem test_port_width_13_refused : outWidthWellFormed 13 = false := by decide

theorem test_parameters_with_port_width_13_refused :
    openParamsWellFormed ⟨13, 500000, "bus0"⟩ = false := by decide

theorem test_command_of_12_bits_refused : cmdWordWellFormed 0x800 = false := by decide

theorem test_field_8192_refused : tcRawWellFormed 8192 = false := by decide

theorem test_field_minus_2049_refused : intRawWellFormed (-2049) = false := by decide

/-- R5: a frame is `FRAME_BYTES` bytes of `BYTE_W` bits, and the fields end where the word does. -/
theorem test_parameters_fit :
    Config.frameW = Config.frameBytes * Config.byteW ∧ Config.tcLsb + Config.tcBits = Config.frameW ∧
      Config.intLsb + Config.intBits = 16 := by decide

/-! ### Decoding, from R45, R48 and section 2.6 of the vectors -/

/-- R45: the widths add to 32. -/
theorem test_layout_accounts_for_every_bit :
    (frameLayout.map fun f => f.hi - f.lo + 1).sum = 32 := by decide

theorem test_decode_reset : decodeTableWord 16 0b10010101010 = some .reset := by decide

theorem test_decode_start : decodeTableWord 16 0b01110101010 = some .start := by decide

theorem test_decode_byte : decodeTableWord 16 0b00110101010 = some (.byte 0xAA#8) := by decide

theorem test_decode_idle : decodeTableWord 16 0b00001010110 = some .idle := by decide

theorem test_decode_frame : decodeTableWord 32 0xDEADBEEF = some .decode := by decide

theorem test_decode_rejects_bit_11 : readTableWord 16 0x800 = .error .aboveCommandBits := by rfl

theorem test_decode_rejects_33_bits : readTableWord 33 0 = .error .widerThanFrame := by rfl

theorem test_decode_rejects_outside_width : readTableWord 8 0x100 = .error .outsideWidth := by rfl

theorem test_canonical_words :
    encode .reset = .command 0x400#11 ∧ encode .start = .command 0x200#11 ∧ encode (.byte 0xF0#8) = .command 0x1F0#11 ∧
      encode .idle = .command 0x000#11 := by decide

/-! ### Commands: rows K1 to K18 -/

/-- K16: RESET clears the counter and the flag. -/
theorem test_reset_clears : (nextOf (exec .reset (stateOf 1#8 2#8 3#8 4#8 4 true))).map (fun t => (t.cnt.val, t.ovr)) =
    some (0, false) := by decide

/-- K14: START keeps the registers and clears the flag. -/
theorem test_start_keeps_registers :
    blockAfter .start (stateOf 1#8 2#8 3#8 4#8 4 true) = some ([1#8, 2#8, 3#8, 4#8], 0, false) := by decide

/-- K7: an accepted byte goes to `buf[2]`. -/
theorem test_byte_accepted :
    blockAfter (.byte 0xEE#8) (stateOf 1#8 2#8 3#8 4#8 2 false) = some ([1#8, 2#8, 0xEE#8, 4#8], 3, false) := by decide

/-- K9: a fifth byte sets the flag and is dropped. -/
theorem test_byte_overrun :
    blockAfter (.byte 0xEE#8) (stateOf 1#8 2#8 3#8 4#8 4 false) = some ([1#8, 2#8, 3#8, 4#8], 4, true) := by decide

/-- K4: IDLE changes nothing. -/
theorem test_idle : nextOf (exec .idle (stateOf 1#8 2#8 3#8 4#8 4 true)) = some (stateOf 1#8 2#8 3#8 4#8 4 true) := by
  decide

/-- K15: the word 3EE is START at `cnt = 2`, through one step. -/
theorem test_step_on_3EE :
    (nextOf (step { stateOf 1#8 2#8 3#8 4#8 2 false with input := [.command 0x3EE#11] })).map
      (fun t => (t.buf.toList, t.cnt.val, t.input)) = some ([1#8, 2#8, 3#8, 4#8], 0, []) := by decide

/-- A step on nothing is IDLE (assumption 1). -/
theorem test_step_on_empty_input : nextOf (step State.reset) = some State.reset := by decide

/-- The fourth byte of a frame placed as the first word after reset is accepted as byte 0 (assumption 6). -/
theorem test_placed_word_runs : (nextOf (step (State.reset.withFetchWord 16 0x1F0))).map (fun t => (t.buf.b0, t.cnt.val)) =
    some (0xF0#8, 1) := by decide

/-! ### The FRAME operations -/

/-- V24. -/
theorem test_decode_deadbeef : answer .decode (stateOf 0xDE#8 0xAD#8 0xBE#8 0xEF#8 4 false) =
    some (.record ⟨-2133, -1042, true, true, true, true, true, true⟩) := by decide

/-- V13, the frame of conflict C1: D16 alone. -/
theorem test_decode_d16_alone : answer .decode (stateOf 0x00#8 0x01#8 0x00#8 0x00#8 4 false) =
    some (.record ⟨0, 0, false, false, false, false, true, true⟩) := by decide

/-- T10: floor, not truncation. -/
theorem test_tcraw_floor : answer .tcraw (stateOf 0xFF#8 0xFD#8 0x19#8 0x01#8 4 false) = some (.tcRaw (-1)) := by decide

/-- T7: arithmetic, not logical. -/
theorem test_tcraw_smallest : answer .tcraw (stateOf 0x80#8 0x00#8 0x00#8 0x00#8 4 false) = some (.tcRaw (-8192)) := by
  decide

/-- X12. -/
theorem test_intraw_floor : answer .intraw (stateOf 0x00#8 0x00#8 0xFF#8 0xE7#8 4 false) = some (.intRaw (-2)) := by decide

/-- X6. -/
theorem test_intraw_largest : answer .intraw (stateOf 0x00#8 0x00#8 0x7F#8 0xFF#8 4 false) = some (.intRaw 2047) := by
  decide

/-- Section 2.4: D17 is not D16. -/
theorem test_fd16_is_not_d17 : answer .fd16 (stateOf 0x00#8 0xFE#8 0x00#8 0x07#8 4 false) = some (.faultD16 false) := by
  decide

theorem test_scv_reads_d2 : answer .scv (stateOf 0x00#8 0x00#8 0x00#8 0xF4#8 4 false) = some (.scvFault true) := by decide

theorem test_scg_does_not_read_fd : answer .scg (stateOf 0x00#8 0x00#8 0x00#8 0xFD#8 4 false) = some (.scgFault false) := by
  decide

theorem test_oc_does_not_read_fe : answer .oc (stateOf 0x00#8 0x00#8 0x00#8 0xFE#8 4 false) = some (.ocFault false) := by
  decide

/-- F9: `fault` does not read D16. -/
theorem test_fault_ignores_d16 : answer .fault (stateOf 0x00#8 0x01#8 0x00#8 0x00#8 4 false) = some (.fault false) := by
  decide

/-- F9: `sensor_fault` reads D16. -/
theorem test_sfault_reads_d16 : answer .sfault (stateOf 0x00#8 0x01#8 0x00#8 0x00#8 4 false) = some (.sensorFault true) := by
  decide

/-- Section 2.5, the row of -5: integer part -2 and three quarters. -/
theorem test_tcdeg_parts : (tcDegOf (-5)).intPart = -2 ∧ (tcDegOf (-5)).fracPart = 3 := by decide

/-- S3 is 62.00 degrees, in fixed point. -/
theorem test_tcdeg_62 : answer .tcdeg (stateOf 0x03#8 0xE0#8 0x0F#8 0xF0#8 4 false) = some (.tcDeg ⟨248, 2⟩) := by decide

/-- Section 2.5, the row of -17: integer part -2 and fifteen sixteenths. -/
theorem test_intdeg_parts : (intDegOf (-17)).intPart = -2 ∧ (intDegOf (-17)).fracPart = 15 := by decide

/-- S3 is 15.9375 degrees, in fixed point. -/
theorem test_intdeg_255 : answer .intdeg (stateOf 0x03#8 0xE0#8 0x0F#8 0xF0#8 4 false) = some (.intDeg ⟨255, 4⟩) := by
  decide

/-- I4: a mixture of fresh and stale bytes is never presented (R23). -/
theorem test_mixture_is_not_presented : answer .tcraw (stateOf 0x7F#8 0x00#8 0x00#8 0x00#8 1 false) = none := by decide

/-- V6 on the pins: both fields smallest. -/
theorem test_pins_smallest :
    ((stateOf 0x80#8 0x03#8 0x80#8 0x0F#8 4 false).pins 16).tcRaw = 0xE000#16 ∧
    ((stateOf 0x80#8 0x03#8 0x80#8 0x0F#8 4 false).pins 16).intRaw = 0xF800#16 := by decide

/-- R5: the values this hardware takes for `OUT_W` and `SCLK_HZ`. -/
theorem test_open_parameters :
    openParamsWellFormed Config.thisHardware = true ∧ Config.thisHardware.outW = 16 ∧
      (busRequest Config.thisHardware none).clockHz = 500000 ∧
      (busRequest Config.thisHardware (some "bus1")).path = "bus1" := by decide

/-- R73: at the narrowest width the port is the bare field. -/
theorem test_pins_at_14_bits :
    ((stateOf 0x80#8 0x03#8 0x80#8 0x0F#8 4 false).pins 14).tcRaw = 0x2000#14 ∧
    ((stateOf 0x80#8 0x03#8 0x80#8 0x0F#8 4 false).pins 14).intRaw = 0x3800#14 := by decide

/-! ### Witnesses: the hypotheses of each statement can be met -/

/-- A complete frame, V24. -/
def held : State := stateOf 0xDE#8 0xAD#8 0xBE#8 0xEF#8 4 false

/-- Three bytes of a frame. -/
def threeBytes : State := stateOf 0x7F#8 0xFC#8 0x00#8 0x55#8 3 false

theorem witness_EncodeDecodeRoundTrip : (Instr.byte 0x00#8).wellFormed = true ∧ Instr.intdeg.wellFormed = true := by decide

/-- Both ends of each of the four ranges of words. -/
theorem witness_CommandWordSelectsByPriority :
    (0x400#11 &&& 0x400#11 = 0x400#11 ∧ 0x7FF#11 &&& 0x400#11 = 0x400#11) ∧
    (0x200#11 &&& 0x600#11 = 0x200#11 ∧ 0x3FF#11 &&& 0x600#11 = 0x200#11) ∧
    (0x100#11 &&& 0x700#11 = 0x100#11 ∧ 0x1FF#11 &&& 0x700#11 = 0x100#11) ∧
    (0x000#11 &&& 0x700#11 = 0x000#11 ∧ 0x0FF#11 &&& 0x700#11 = 0x000#11) := by decide

theorem witness_StepRunsDecodedInstruction :
    { held with input := [.observe .tcraw, .command 0x200#11] }.input = .observe .tcraw :: [.command 0x200#11] ∧
      held.input = [] := by decide

/-- The four branches, the third at both sides of `cnt < 4`. -/
theorem witness_StepFollowsStepFunction :
    ({ threeBytes with input := [.command 0x7FF#11] } : State).input = .command 0x7FF#11 :: [] ∧
    ({ threeBytes with input := [.command 0x3FF#11] } : State).input = .command 0x3FF#11 :: [] ∧
    ({ threeBytes with input := [.command 0x1FF#11] } : State).input = .command 0x1FF#11 :: [] ∧ threeBytes.cnt.val < 4 ∧
    ({ held with input := [.command 0x1FF#11] } : State).input = .command 0x1FF#11 :: [] ∧ ¬ held.cnt.val < 4 ∧
    ({ threeBytes with input := [.command 0x0FF#11] } : State).input = .command 0x0FF#11 :: [] := by decide

theorem witness_StepsOnInputRunTheOperations :
    ({ threeBytes with input := eventsOf [.byte 0xF0#8, .tcraw] ++ [.command 0x200#11] } : State).input =
      eventsOf [.byte 0xF0#8, .tcraw] ++ [.command 0x200#11] := by decide

theorem witness_PlacedWordRunsNext : 2047 < 2048 ∧ 4294967295 < 4294967296 := by decide

theorem witness_ResetCommandInitialises :
    exec .reset held = .next held.drawBytes.frameBoundary ∧ (0x400#11).getLsbD 10 = true := ⟨rfl, by decide⟩

theorem witness_StartMarksFrameBoundary :
    State.reset.cnt = 0 ∧ bytesIn [.byte 0x7F#8, .byte 0xFC#8, .idle, .reset, .byte 0x00#8] = 3 ∧
      (0x3FF#11).getLsbD 10 = false ∧ (0x3FF#11).getLsbD 9 = true := by decide

/-- Both ends of `cnt < 4`, the invariant, and both ends of the words of BYTE. -/
theorem witness_ByteAcceptedStoresAtCounter :
    State.reset.cnt.val < 4 ∧ threeBytes.cnt.val = 3 ∧ threeBytes.Inv ∧ 0x100#11 &&& 0x700#11 = 0x100#11 ∧
      0x1FF#11 &&& 0x700#11 = 0x100#11 := by decide

theorem witness_ByteOverrunOnlySetsFlag :
    held.cnt = 4 ∧ nextOf (exec .start { held with ovr := true }) = some { held with cnt := 0 } ∧
      ({ held with ovr := true } : State).ovr = true ∧ ({ held with cnt := 0 } : State).ovr = false := by decide

theorem witness_IdleChangesNothing : 0x0FF#11 &&& 0x700#11 = 0x000#11 := by decide

theorem witness_RegistersWrittenByAcceptedByteOnly :
    Instr.byte 0x11#8 ≠ .reset ∧ Instr.start ≠ .reset ∧ (∀ din, Instr.start ≠ .byte din) ∧ held.cnt = 4 :=
  ⟨by decide, by decide, fun din => by simp, by decide⟩

theorem witness_CounterCountsDeliveredBytes :
    noBoundary [.byte 0x11#8, .idle, .tcraw, .byte 0x22#8] = true ∧ noBoundary [] = true := by decide

theorem witness_MisframedDeliveryNeverTraps :
    0 < (stateOf 0x7F#8 0#8 0#8 0#8 1 false).cnt.val ∧ threeBytes.cnt.val < 4 ∧ held.cnt = 4 := by decide

theorem witness_FrameCompletesAtomically :
    (nextOf (exec (.byte 0xF0#8) threeBytes)).map (·.valid) = some true ∧ threeBytes.valid = false ∧
      (nextOf (exec (.byte 0xF0#8) held)).map (·.valid) = some true ∧ held.valid = true ∧ Instr.idle ≠ .reset ∧
      (∀ din, Instr.idle ≠ .byte din) ∧ held.cnt = 4 :=
  ⟨by decide, by decide, by decide, by decide, by decide, fun din => by simp, by decide⟩

/-- For every statement about the FRAME operations on a complete frame. -/
theorem witness_complete_frame : held.cnt = 4 := by decide

theorem witness_NoResultWithoutCompleteFrame :
    held.cnt = 4 ∧ threeBytes.cnt.val < 4 ∧ State.reset.cnt.val < 4 ∧ outWidthWellFormed 14 = true := by decide

/-- The two ends of the bits TCRAW reads, and the bits beside them. -/
theorem witness_OutputsReadExactlyTheirBits :
    (FrameOp.reads .tcraw).getLsbD 31 = true ∧ (FrameOp.reads .tcraw).getLsbD 18 = true ∧
      (FrameOp.reads .tcraw).getLsbD 17 = false ∧ (FrameOp.reads .tcraw).getLsbD 0 = false := by decide

theorem witness_TemperatureRangesAreFull :
    tcRawWellFormed (-8192) = true ∧ tcRawWellFormed 8191 = true ∧ intRawWellFormed (-2048) = true ∧
      intRawWellFormed 2047 = true := by decide

theorem witness_FieldRoundTrip :
    (tcRawWellFormed (-8192) = true ∧ 3 < 4) ∧ (intRawWellFormed 2047 = true ∧ 15 < 16) := by decide

theorem witness_PortsCarrySignExtendedFields :
    outWidthWellFormed 14 = true ∧ outWidthWellFormed 16 = true ∧ 13 ≤ 13 ∧ 13 < 14 ∧ 15 < 16 ∧ 11 ≤ 11 ∧ 14 ≤ 16 := by
  decide

/-- The reads of three and two bytes in the middle are defined, and their last byte is `buf[3]`. -/
theorem witness_MemReadIsBigEndian :
    ((FrameBuf.mk 1#8 2#8 3#8 4#8).memRead 0 3 = some 0x010203#24 ∧ 2 < 3 ∧ 0 + 2 < 4) ∧
    ((FrameBuf.mk 1#8 2#8 3#8 4#8).memRead 1 3 = some 0x020304#24 ∧ 2 < 3 ∧ 1 + 2 < 4) := by decide

/-- F10, and the two inconsistent cases F9 and F2. -/
theorem witness_FaultFlagsAgreeOnConsistentFrames :
    consistentFrame ⟨0x00#8, 0x01#8, 0x00#8, 0x01#8⟩ = true ∧
    (consistentFrame ⟨0x00#8, 0x01#8, 0x00#8, 0x00#8⟩ = false ∧
      (FrameBuf.mk 0x00#8 0x01#8 0x00#8 0x00#8).word.getLsbD 16 = true) ∧
    (consistentFrame ⟨0x00#8, 0x00#8, 0x00#8, 0x01#8⟩ = false ∧
      (FrameBuf.mk 0x00#8 0x00#8 0x00#8 0x01#8).word.getLsbD 16 = false) := by decide

/-- I5, and an overrun after it. -/
theorem witness_FrameTheorem :
    [Instr.start, .idle, .byte 0x01#8, .idle, .idle, .byte 0x90#8, .idle, .byte 0x19#8, .byte 0x00#8, .idle].filter
        (· ≠ .idle) = [.start, .byte 0x01#8, .byte 0x90#8, .byte 0x19#8, .byte 0x00#8] ∧
    (∀ i ∈ [Instr.byte 0xAA#8, .idle], i = .idle ∨ ∃ din, i = .byte din) :=
  ⟨by decide, by simp⟩

theorem witness_OverrunImpliesCompleteFrameKept :
    ({ held with ovr := true } : State).Inv ∧ (nextOf (step { held with ovr := true })).isSome = true := by decide

theorem witness_InvariantsOfReachableStates : Instr.start = .start ∧ Instr.reset = .reset := by decide

/-- Two states with one byte delivered that differ in the other three. -/
theorem witness_UnseenBytesAreNeverObserved :
    (stateOf 0x7F#8 1#8 2#8 3#8 1 false).sameSeen { stateOf 0x7F#8 4#8 5#8 6#8 1 false with freeNext := 9 } := by decide

theorem witness_DutifulHostIsAlwaysAnswered :
    State.reset.ovr = false ∧
    hostObeys State.reset.cnt.val
        ([.start, .byte 0x03#8, .byte 0xE0#8, .byte 0x0F#8, .byte 0xF0#8] ++ decodeFrameOp .sfault :: [.tcdeg, .reset]) =
      true := by decide

/-- S3 passes the gate and reports 62.00; the faulty frame of P2 does not. -/
theorem witness_FaultGateWithholdsTemperature :
    (stateOf 0x03#8 0xE0#8 0x0F#8 0xF0#8 4 false).gatedTemperature = some ⟨248, 2⟩ ∧
    callerReport (.frame ⟨0x03#8, 0xE0#8, 0x0F#8, 0xF0#8⟩) (stateOf 0x03#8 0xE0#8 0x0F#8 0xF0#8 4 false) =
      .temperature 6200 ∧
    (stateOf 0xFF#8 0xFD#8 0x19#8 0x01#8 4 false).gatedTemperature = none ∧
    (stateOf 0xFF#8 0xFD#8 0x19#8 0x01#8 4 false).buf.word &&& 0x00010007#32 ≠ 0#32 := by decide

end Sys2Proof.Tests
end

section
/-!
PROOFS. The flags and the result of a state (spec/10_state.md): the values at reset (R28), and what sets and clears `ovr`
(R19).
-/

namespace Sys2Proof.Machine

/-! ### No frame is held at `cnt = 0` -/

theorem State.valid_of_cnt_eq_zero {s : State} (h : s.cnt = 0) : s.valid = false := by
  rw [State.not_valid_iff, h]
  decide

theorem State.result_of_cnt_eq_zero {s : State} (h : s.cnt = 0) : s.result = none :=
  State.result_of_not_valid (State.valid_of_cnt_eq_zero h)

/-- Settles O9: `cnt` is 0 in both states, and at `cnt = 0` no complete frame is held. -/
theorem resetValues : Obligations.ResetValues :=
  ⟨⟨rfl, rfl, State.valid_of_cnt_eq_zero rfl, State.result_of_cnt_eq_zero rfl⟩,
    fun s => ⟨s.drawBytes.frameBoundary, exec_reset s, State.frameBoundary_cnt _, State.frameBoundary_ovr _,
      State.valid_of_cnt_eq_zero (State.frameBoundary_cnt _),
      State.result_of_cnt_eq_zero (State.frameBoundary_cnt _)⟩⟩

/-! ### The overrun flag -/

/-- The counter stops at 4 (R18), so a BYTE that is not accepted finds `cnt = 4`. -/
theorem State.cnt_eq_four_iff_not_lt (s : State) : s.cnt = 4 ↔ ¬ s.cnt.val < 4 := by
  rw [← State.valid_iff, ← State.not_valid_iff, Bool.not_eq_false]

@[simp] theorem decodeFrameOp_ne_reset (op : FrameOp) : decodeFrameOp op ≠ .reset := by
  cases op <;> simp [decodeFrameOp]

@[simp] theorem decodeFrameOp_ne_start (op : FrameOp) : decodeFrameOp op ≠ .start := by
  cases op <;> simp [decodeFrameOp]

@[simp] theorem decodeFrameOp_ne_byte (op : FrameOp) (din : Byte) : decodeFrameOp op ≠ .byte din := by
  cases op <;> simp [decodeFrameOp]

/-- R19: `ovr` survives every operation but START and RESET, and only a BYTE at `cnt = 4` sets it. -/
theorem ovr_iff_of_exec {i : Instr} {s t : State} (h : exec i s = .next t) :
    t.ovr = true ↔
      (s.ovr = true ∧ i ≠ .start ∧ i ≠ .reset) ∨ ((∃ din, i = .byte din) ∧ s.cnt = 4) := by
  obtain ⟨rfl, rfl⟩ | ⟨rfl, rfl⟩ | ⟨din, hc, rfl, rfl⟩ | ⟨din, hc, rfl, rfl⟩ | ⟨rfl, rfl⟩ | ⟨op, f, rfl, rfl⟩ :=
    exec_cases h
  · simp
  · simp
  · simp [State.cnt_eq_four_iff_not_lt, hc]
  · simp [State.cnt_eq_four_iff_not_lt, hc]
  · simp
  · simp

/-- The result reads the counter and the registers, not the flag (R23). -/
@[simp] theorem State.result_set_ovr (s : State) (v : Bool) : ({ s with ovr := v } : State).result = s.result := rfl

/-- The flag reaches the pins at its own port alone (R15). -/
@[simp] theorem State.pins_set_ovr (s : State) (v : Bool) (outW : Nat) :
    ({ s with ovr := v } : State).pins outW = { s.pins outW with ovr := v } := rfl

/-- Settles O15: every operation has a next state, `ovr_iff_of_exec` gives the flag there, and the result and the other
pins do not read it. -/
theorem overrunFlagLifecycle : Obligations.OverrunFlagLifecycle := by
  refine ⟨fun i s => ?_, fun s v => ⟨State.result_set_ovr s v, State.pins_set_ovr s v⟩⟩
  obtain ⟨t, ht⟩ := exec_total i s
  exact ⟨t, ht, ovr_iff_of_exec ht⟩

end Sys2Proof.Machine
end

section
/-!
PROOFS. The frame buffer as memory (spec/20_memory.md): its byte order (R33), a misframed delivery (R37), and reading
without side effects (R39).
-/

namespace Sys2Proof.Machine

/-! ### Reading has no side effects -/

/-- A run goes on after an operation from the state the operation answers. -/
theorem runInstrs_cons {i : Instr} {s t : State} (h : exec i s = .next t) (is : List Instr) :
    runInstrs (i :: is) s = runInstrs is t := by
  simp only [runInstrs, h]

/-- The result does not read what the host last read (R23). -/
@[simp] theorem State.result_set_lastRead (s : State) (v : Option Output) :
    ({ s with lastRead := v } : State).result = s.result := rfl

/-- What the host last read reaches no pin (R15). -/
@[simp] theorem State.pins_set_lastRead (s : State) (v : Option Output) (outW : Nat) :
    ({ s with lastRead := v } : State).pins outW = s.pins outW := rfl

/-- An observation does not depend on what the host last read, and replaces it. -/
@[simp] theorem State.observe_set_lastRead (s : State) (v : Option Output) (f : FrameBuf → Output) :
    ({ s with lastRead := v } : State).observe f = s.observe f := rfl

/-- The output a FRAME operation looks at is the same function of the frame in every state: `exec_frameOp` with one `f`
for all states. -/
theorem exec_frameOp_uniform (op : FrameOp) :
    ∃ f : FrameBuf → Output, ∀ s : State, exec (decodeFrameOp op) s = .next (s.observe f) := by
  cases op <;> exact ⟨_, fun _ => rfl⟩

theorem exec_frameOp_set_lastRead (op : FrameOp) (s : State) (v : Option Output) :
    exec (decodeFrameOp op) { s with lastRead := v } = exec (decodeFrameOp op) s := by
  obtain ⟨f, hf⟩ := exec_frameOp_uniform op
  rw [hf, hf, State.observe_set_lastRead]

/-- R39 over a sequence: however many observations are made, the state they end in differs in `lastRead` alone. -/
theorem runInstrs_frameOps (ops : List FrameOp) (s : State) :
    ∃ v : Option Output, runInstrs (ops.map decodeFrameOp) s = .next { s with lastRead := v } := by
  induction ops generalizing s with
  | nil => exact ⟨s.lastRead, rfl⟩
  | cons op ops ih =>
    obtain ⟨f, hf⟩ := exec_frameOp op s
    obtain ⟨v, hv⟩ := ih (s.observe f)
    exact ⟨v, (runInstrs_cons hf _).trans hv⟩

/-- Settles O26: by `runInstrs_frameOps` the run changes `lastRead` alone, which no pin, no result and no observation
reads. -/
theorem observingChangesNothing : Obligations.ObservingChangesNothing := by
  intro ops s
  obtain ⟨v, hv⟩ := runInstrs_frameOps ops s
  exact ⟨{ s with lastRead := v }, hv, rfl, rfl, rfl, rfl, rfl, State.pins_set_lastRead s v,
    State.result_set_lastRead s v, fun op => exec_frameOp_set_lastRead op s v⟩

/-! ### The byte order of the frame word -/

/-- Concatenation puts its first operand in the high bits (R7): the two parts do not overlap, so their bitwise or is a
sum. -/
theorem toNat_append_eq_add {m n : Nat} (x : BitVec m) (y : BitVec n) :
    (x ++ y).toNat = x.toNat * 2 ^ n + y.toNat := by
  rw [BitVec.toNat_append, ← Nat.shiftLeft_add_eq_or_of_lt y.isLt, Nat.shiftLeft_eq]

theorem toNat_half (hi lo : Byte) : (half hi lo).toNat = 256 * hi.toNat + lo.toNat := by
  rw [half, toNat_append_eq_add]
  omega

/-- R33: the frame word is its upper half followed by its lower half. -/
theorem word_eq_upper_append_lower (b : FrameBuf) : b.word = b.upper ++ b.lower :=
  (BitVec.append_assoc' (x₁ := b.b0 ++ b.b1) (x₂ := b.b2) (x₃ := b.b3)).symm

theorem toNat_word (b : FrameBuf) :
    b.word.toNat = b.b0.toNat * 2 ^ 24 + b.b1.toNat * 2 ^ 16 + b.b2.toNat * 2 ^ 8 + b.b3.toNat := by
  rw [word_eq_upper_append_lower, toNat_append_eq_add, FrameBuf.upper, FrameBuf.lower, toNat_half, toNat_half]
  omega

theorem upper_eq_extractLsb' (b : FrameBuf) : b.upper = b.word.extractLsb' 16 16 := by
  rw [word_eq_upper_append_lower, BitVec.extractLsb'_append_eq_left]

theorem lower_eq_extractLsb' (b : FrameBuf) : b.lower = b.word.extractLsb' 0 16 := by
  rw [word_eq_upper_append_lower, BitVec.extractLsb'_append_eq_right]

/-- Settles O37: the word is the upper half followed by the lower half, and each half is two bytes, the first the more
significant. -/
theorem frameWordIsBigEndian : Obligations.FrameWordIsBigEndian := fun b =>
  ⟨toNat_word b, toNat_half b.b0 b.b1, toNat_half b.b2 b.b3, upper_eq_extractLsb' b, lower_eq_extractLsb' b⟩

/-! ### A misframed delivery -/

/-- R36: START and RESET both end in a state with no byte counted and no overrun. -/
theorem exec_boundary {i : Instr} (hi : i = .start ∨ i = .reset) (s : State) :
    ∃ t : State, exec i s = .next t ∧ t.cnt = 0 ∧ t.ovr = false := by
  obtain rfl | rfl := hi
  · exact ⟨s.frameBoundary, exec_start s, State.frameBoundary_cnt s, State.frameBoundary_ovr s⟩
  · exact ⟨s.drawBytes.frameBoundary, exec_reset s, State.frameBoundary_cnt _, State.frameBoundary_ovr _⟩

/-- R92: an overrun changes the flag alone, which the result does not read. -/
@[simp] theorem State.raiseOverrun_result (s : State) : s.raiseOverrun.result = s.result :=
  State.result_set_ovr s true

/-- Settles O18: a boundary in mid-frame finds no result and leaves none, since `cnt` is below 4 before and 0 after; a
BYTE at `cnt = 4` is an overrun. -/
theorem misframedDeliveryNeverTraps : Obligations.MisframedDeliveryNeverTraps := by
  refine ⟨fun s i _ hlt hi => ?_, fun s din hc => ?_⟩
  · obtain ⟨t, ht, hcnt, hovr⟩ := exec_boundary hi s
    exact ⟨t, ht, hcnt, hovr, State.result_of_not_valid (s.not_valid_iff.mpr hlt), State.result_of_cnt_eq_zero hcnt⟩
  · have hover := exec_byte_overrun din (s.cnt_eq_four_iff_not_lt.mp hc)
    exact ⟨s.raiseOverrun, hover, State.raiseOverrun_buf s, State.raiseOverrun_cnt s, State.raiseOverrun_ovr s,
      State.raiseOverrun_result s⟩

end Sys2Proof.Machine
end

section
/-!
PROOFS. The encoding (spec/30_encoding.md): what the reserved bits of a frame change (R54), and which command a word
selects (R48).
-/

namespace Sys2Proof.Machine

/-! ### The decoded outputs as fields of the frame word -/

/-- An arithmetic right shift keeps the upper bits and extends their sign (R8). -/
theorem asr_eq_signExtend {w k n : Nat} (hn : 0 < n) (hw : k + n = w) (x : BitVec w) :
    asr x k = (x.extractLsb' k n).signExtend w := by
  have hmsb : (x.extractLsb' k n).msb = x.msb := by
    rw [BitVec.msb_eq_getLsbD_last, BitVec.msb_eq_getLsbD_last, BitVec.getLsbD_extractLsb',
      decide_eq_true (by omega), Bool.true_and]
    congr 1
    omega
  apply BitVec.eq_of_getLsbD_eq
  intro i hi
  rw [asr, BitVec.getLsbD_sshiftRight, BitVec.getLsbD_signExtend, BitVec.getLsbD_extractLsb', hmsb]
  by_cases hin : i < n
  · have hki : k + i < w := by omega
    simp [hin, hki, hi]
  · have hki : ¬ k + i < w := by omega
    simp [hin, hki, hi]

theorem tcField_eq_extractLsb'_upper (b : FrameBuf) : tcField b.word = b.upper.extractLsb' 2 14 := by
  apply BitVec.eq_of_getLsbD_eq
  intro i hi
  have h16 : 2 + i < 16 := by omega
  simp [upper_eq_extractLsb', tcField, frameBits, hi, h16, ← Nat.add_assoc]

theorem intField_eq_extractLsb'_lower (b : FrameBuf) : intField b.word = b.lower.extractLsb' 4 12 := by
  apply BitVec.eq_of_getLsbD_eq
  intro i hi
  simp [lower_eq_extractLsb', intField, frameBits, hi]

/-- R49: the source's two moves, halves and an arithmetic shift, give the field sign-extended. -/
theorem tcShifted_eq_signExtend (b : FrameBuf) : tcShifted b.b0 b.b1 = (tcField b.word).signExtend 16 := by
  rw [tcField_eq_extractLsb'_upper]
  exact asr_eq_signExtend (n := 14) (by decide) rfl b.upper

/-- R50: the same of the lower half. -/
theorem intShifted_eq_signExtend (b : FrameBuf) : intShifted b.b2 b.b3 = (intField b.word).signExtend 16 := by
  rw [intField_eq_extractLsb'_lower]
  exact asr_eq_signExtend (n := 12) (by decide) rfl b.lower

theorem tcRawOf_eq_toInt_tcField (b : FrameBuf) : tcRawOf b.b0 b.b1 = (tcField b.word).toInt := by
  rw [tcRawOf, tcShifted_eq_signExtend, BitVec.toInt_signExtend_of_le (by decide)]

theorem intRawOf_eq_toInt_intField (b : FrameBuf) : intRawOf b.b2 b.b3 = (intField b.word).toInt := by
  rw [intRawOf, intShifted_eq_signExtend, BitVec.toInt_signExtend_of_le (by decide)]

theorem faultD16Of_eq_getLsbD_word (b : FrameBuf) : faultD16Of b.b1 = b.word.getLsbD 16 :=
  (getLsbD_word b 16).symm

theorem scvOf_eq_getLsbD_word (b : FrameBuf) : scvOf b.b3 = b.word.getLsbD 2 :=
  (getLsbD_word b 2).symm

theorem scgOf_eq_getLsbD_word (b : FrameBuf) : scgOf b.b3 = b.word.getLsbD 1 :=
  (getLsbD_word b 1).symm

theorem ocOf_eq_getLsbD_word (b : FrameBuf) : ocOf b.b3 = b.word.getLsbD 0 :=
  (getLsbD_word b 0).symm

/-! ### The bits DECODE reads decide every output -/

/-- Two words that agree under a mask agree at each of its bits. -/
theorem getLsbD_eq_of_and_eq {w : Nat} {x y m : BitVec w} (h : x &&& m = y &&& m) {k : Nat}
    (hk : m.getLsbD k = true) : x.getLsbD k = y.getLsbD k := by
  simpa [hk] using congrArg (·.getLsbD k) h

/-- Two frames that agree under a mask agree in each field the mask covers. -/
theorem frameBits_eq_of_and_eq {x y m : FrameWord} (h : x &&& m = y &&& m) {lo n : Nat}
    (hm : frameBits m lo n = BitVec.allOnes n) : frameBits x lo n = frameBits y lo n := by
  have hf : frameBits (x &&& m) lo n = frameBits (y &&& m) lo n := congrArg (frameBits · lo n) h
  rw [frameBits] at hm
  simpa only [frameBits, BitVec.extractLsb'_and, hm, BitVec.and_allOnes] using hf

section
variable {b c : FrameBuf} (h : b.word &&& FrameOp.reads .decode = c.word &&& FrameOp.reads .decode)
include h

theorem tcField_eq_of_reads_eq : tcField b.word = tcField c.word :=
  frameBits_eq_of_and_eq h (by decide)

theorem intField_eq_of_reads_eq : intField b.word = intField c.word :=
  frameBits_eq_of_and_eq h (by decide)

theorem faultD16Of_eq_of_reads_eq : faultD16Of b.b1 = faultD16Of c.b1 := by
  rw [faultD16Of_eq_getLsbD_word, faultD16Of_eq_getLsbD_word]
  exact getLsbD_eq_of_and_eq h (by decide)

theorem scvOf_eq_of_reads_eq : scvOf b.b3 = scvOf c.b3 := by
  rw [scvOf_eq_getLsbD_word, scvOf_eq_getLsbD_word]
  exact getLsbD_eq_of_and_eq h (by decide)

theorem scgOf_eq_of_reads_eq : scgOf b.b3 = scgOf c.b3 := by
  rw [scgOf_eq_getLsbD_word, scgOf_eq_getLsbD_word]
  exact getLsbD_eq_of_and_eq h (by decide)

theorem ocOf_eq_of_reads_eq : ocOf b.b3 = ocOf c.b3 := by
  rw [ocOf_eq_getLsbD_word, ocOf_eq_getLsbD_word]
  exact getLsbD_eq_of_and_eq h (by decide)

theorem decodeFrame_eq_of_reads_eq : decodeFrame b = decodeFrame c := by
  simp only [decodeFrame, sensorFaultOf, faultOf, tcRawOf_eq_toInt_tcField, intRawOf_eq_toInt_intField,
    tcField_eq_of_reads_eq h, intField_eq_of_reads_eq h, faultD16Of_eq_of_reads_eq h, scvOf_eq_of_reads_eq h,
    scgOf_eq_of_reads_eq h, ocOf_eq_of_reads_eq h]

end

/-- The pins read the frame through the same bits, and the counter and the flag beside them (R15). -/
theorem State.pins_eq_of_reads_eq {s t : State}
    (h : s.buf.word &&& FrameOp.reads .decode = t.buf.word &&& FrameOp.reads .decode) (hcnt : s.cnt = t.cnt)
    (hovr : s.ovr = t.ovr) (outW : Nat) : s.pins outW = t.pins outW := by
  simp only [State.pins, State.valid, hcnt, hovr, tcPortAt, intPortAt, sensorFaultOf, faultOf,
    tcField_eq_of_reads_eq h, intField_eq_of_reads_eq h, faultD16Of_eq_of_reads_eq h, scvOf_eq_of_reads_eq h,
    scgOf_eq_of_reads_eq h, ocOf_eq_of_reads_eq h]

/-! ### The reserved bits -/

/-- Flipping bits outside a mask changes nothing under it. -/
theorem xor_and_of_and_eq_zero {w : Nat} {f m : BitVec w} (h : f &&& m = 0#w) (x : BitVec w) :
    (x ^^^ f) &&& m = x &&& m := by
  apply BitVec.eq_of_getLsbD_eq
  intro i _
  have hfm : (f.getLsbD i && m.getLsbD i) = false := by simpa using congrArg (·.getLsbD i) h
  rw [BitVec.getLsbD_and, BitVec.getLsbD_and, BitVec.getLsbD_xor, Bool.and_xor_distrib_right, hfm, Bool.xor_false]

/-- DECODE reads neither D17 nor D3. -/
theorem xor_reserved_and_reads (w : FrameWord) (d17 d3 : Bool) :
    (w ^^^ (if d17 then 0x00020000#32 else 0#32) ^^^ (if d3 then 0x00000008#32 else 0#32)) &&& FrameOp.reads .decode =
      w &&& FrameOp.reads .decode := by
  rw [xor_and_of_and_eq_zero (by cases d3 <;> decide), xor_and_of_and_eq_zero (by cases d17 <;> decide)]

/-- Settles O28: the flipped frame agrees with the frame in the bits DECODE reads, and these decide the result and the
pins. -/
theorem reservedBitsChangeNothing : Obligations.ReservedBitsChangeNothing := by
  intro s w d17 d3 flipped
  have h : (FrameBuf.ofWord flipped).word &&& FrameOp.reads .decode =
      (FrameBuf.ofWord w).word &&& FrameOp.reads .decode := by
    rw [word_ofWord, word_ofWord]
    exact xor_reserved_and_reads w d17 d3
  refine ⟨?_, State.pins_eq_of_reads_eq h rfl rfl⟩
  rw [State.result_of_valid rfl, State.result_of_valid rfl]
  exact congrArg some (decodeFrame_eq_of_reads_eq h)

end Sys2Proof.Machine

namespace Sys2Proof

/-! ### The command a word selects -/

/-- R48: `rst` decides alone, and each bit after it counts only when those before it are 0. -/
theorem decodeCommand_of_rst {c : CmdWord} (h : rstBit c = true) : decodeCommand c = .reset := by
  simp [decodeCommand, h]

theorem decodeCommand_of_start {c : CmdWord} (hr : rstBit c = false) (hs : startBit c = true) :
    decodeCommand c = .start := by
  simp [decodeCommand, hr, hs]

theorem decodeCommand_of_bv {c : CmdWord} (hr : rstBit c = false) (hs : startBit c = false)
    (hb : bvBit c = true) : decodeCommand c = .byte (c.setWidth 8) := by
  simp [decodeCommand, hr, hs, hb, dinBits, BitVec.setWidth_eq_extractLsb']

theorem decodeCommand_of_none {c : CmdWord} (hr : rstBit c = false) (hs : startBit c = false)
    (hb : bvBit c = false) : decodeCommand c = .idle := by
  simp [decodeCommand, hr, hs, hb]

/-- The canonical word of BYTE as R48 writes it, `0x100 + din`. -/
theorem byteWord_eq_add (din : Byte) : byteWord din = 0x100#11 + din.setWidth 11 := by
  have hdin := din.isLt
  apply BitVec.eq_of_toNat_eq
  rw [byteWord, Machine.toNat_append_eq_add, BitVec.toNat_add, BitVec.toNat_setWidth, BitVec.toNat_ofNat,
    BitVec.toNat_ofNat]
  omega


/-- A mask that holds a single bit keeps that bit (R47). -/
theorem and_rstMask (c : CmdWord) : c &&& 0x400#11 = if rstBit c then 0x400#11 else 0#11 :=
  BitVec.and_twoPow c 10

theorem and_startMask (c : CmdWord) : c &&& 0x200#11 = if startBit c then 0x200#11 else 0#11 :=
  BitVec.and_twoPow c 9

theorem and_bvMask (c : CmdWord) : c &&& 0x100#11 = if bvBit c then 0x100#11 else 0#11 :=
  BitVec.and_twoPow c 8

/-- The mask of START holds the bits of `rst` and `start` (R48). -/
theorem and_rst_startMask (c : CmdWord) :
    c &&& 0x600#11 = (if rstBit c then 0x400#11 else 0#11) ||| (if startBit c then 0x200#11 else 0#11) := by
  rw [← and_rstMask, ← and_startMask, ← BitVec.and_or_distrib_left]
  rfl

/-- The mask of BYTE and IDLE holds the bits of `rst`, `start` and `bv` (R48). -/
theorem and_rst_start_bvMask (c : CmdWord) :
    c &&& 0x700#11 = (if rstBit c then 0x400#11 else 0#11) ||| (if startBit c then 0x200#11 else 0#11) |||
      (if bvBit c then 0x100#11 else 0#11) := by
  rw [← and_rst_startMask, ← and_bvMask, ← BitVec.and_or_distrib_left]
  rfl

theorem matches_reset_iff (c : CmdWord) : c &&& 0x400#11 = 0x400#11 ↔ rstBit c = true := by
  rw [and_rstMask]
  cases rstBit c <;> decide

theorem matches_start_iff (c : CmdWord) :
    c &&& 0x600#11 = 0x200#11 ↔ rstBit c = false ∧ startBit c = true := by
  rw [and_rst_startMask]
  cases rstBit c <;> cases startBit c <;> decide

theorem matches_byte_iff (c : CmdWord) :
    c &&& 0x700#11 = 0x100#11 ↔ rstBit c = false ∧ startBit c = false ∧ bvBit c = true := by
  rw [and_rst_start_bvMask]
  cases rstBit c <;> cases startBit c <;> cases bvBit c <;> decide

theorem matches_idle_iff (c : CmdWord) :
    c &&& 0x700#11 = 0x000#11 ↔ rstBit c = false ∧ startBit c = false ∧ bvBit c = false := by
  rw [and_rst_start_bvMask]
  cases rstBit c <;> cases startBit c <;> cases bvBit c <;> decide

/-- The four rows of R48 cover every word. -/
theorem matches_some_command (c : CmdWord) :
    c &&& 0x400#11 = 0x400#11 ∨ c &&& 0x600#11 = 0x200#11 ∨ c &&& 0x700#11 = 0x100#11 ∨
      c &&& 0x700#11 = 0x000#11 := by
  rw [matches_reset_iff, matches_start_iff, matches_byte_iff, matches_idle_iff]
  cases rstBit c <;> cases startBit c <;> cases bvBit c <;> decide

/-- Settles O2: mask and match say what the bits `rst`, `start` and `bv` are, these select the command, and `encode`
gives its canonical word. -/
theorem commandWordSelectsByPriority : Obligations.CommandWordSelectsByPriority := by
  intro c
  have selects : ∀ {i : Instr}, decodeCommand c = i →
      decodeEvent (.command c) = i ∧ encode (decodeEvent (.command c)) = encode i :=
    fun hd => ⟨hd, congrArg encode hd⟩
  refine ⟨fun h => ?_, fun h => ?_, fun h => ?_, fun h => ?_, matches_some_command c⟩
  · exact selects (decodeCommand_of_rst ((matches_reset_iff c).mp h))
  · obtain ⟨hr, hs⟩ := (matches_start_iff c).mp h
    exact selects (decodeCommand_of_start hr hs)
  · obtain ⟨hr, hs, hb⟩ := (matches_byte_iff c).mp h
    rw [← byteWord_eq_add]
    exact selects (decodeCommand_of_bv hr hs hb)
  · obtain ⟨hr, hs, hb⟩ := (matches_idle_iff c).mp h
    exact selects (decodeCommand_of_none hr hs hb)

end Sys2Proof
end

section
/-!
PROOFS. DECODE and the other FRAME operations on a complete frame (spec/40_decode.md): the whole record (R59), and the
frame bits each output depends on (R62).
-/

namespace Sys2Proof.Machine

/-! ### What a FRAME operation answers on a complete frame -/

/-- The output a FRAME operation looks at, as a function of the frame held (R52, R53). -/
def frameOutput : FrameOp → FrameBuf → Output
  | .decode, b => .record (decodeFrame b)
  | .tcraw, b => .tcRaw (tcRawOf b.b0 b.b1)
  | .intraw, b => .intRaw (intRawOf b.b2 b.b3)
  | .fd16, b => .faultD16 (faultD16Of b.b1)
  | .scv, b => .scvFault (scvOf b.b3)
  | .scg, b => .scgFault (scgOf b.b3)
  | .oc, b => .ocFault (ocOf b.b3)
  | .fault, b => .fault (faultOf b.b3)
  | .sfault, b => .sensorFault (sensorFaultOf b.b1 b.b3)
  | .tcdeg, b => .tcDeg (tcDegOf (tcRawOf b.b0 b.b1))
  | .intdeg, b => .intDeg (intDegOf (intRawOf b.b2 b.b3))

/-- `exec_frameOp` with the output named. -/
theorem exec_frameOp_eq (op : FrameOp) (s : State) :
    exec (decodeFrameOp op) s = .next (s.observe (frameOutput op)) := by
  cases op <;> rfl

/-- R23: with a complete frame an observation leaves the value with the host, and nothing else changes (R39). -/
theorem State.observe_of_complete {s : State} (h : s.cnt = 4) (f : FrameBuf → Output) :
    s.observe f = { s with lastRead := some (f s.buf) } := by
  rw [State.observe, if_pos (s.valid_iff.mpr h)]

theorem exec_frameOp_of_complete (op : FrameOp) {s : State} (h : s.cnt = 4) :
    exec (decodeFrameOp op) s = .next { s with lastRead := some (frameOutput op s.buf) } := by
  rw [exec_frameOp_eq, State.observe_of_complete h]

theorem answer_frameOp_holdFrame (op : FrameOp) (s : State) (w : FrameWord) :
    answer (decodeFrameOp op) (s.holdFrame w) = some (frameOutput op (FrameBuf.ofWord w)) := by
  rw [answer, exec_frameOp_of_complete op (s.holdFrame_cnt w), State.holdFrame_buf]

/-! ### The record of DECODE -/

/-- R84: two fraction bits are quarters. -/
theorem tcDegOf_value (v : Int) : (tcDegOf v).value = (v : Rat) / 4 := by
  norm_num [tcDegOf, Fixed.value]

/-- R85: four fraction bits are sixteenths. -/
theorem intDegOf_value (v : Int) : (intDegOf v).value = (v : Rat) / 16 := by
  norm_num [intDegOf, Fixed.value]

theorem tcRawOf_eq_toInt_sshiftRight (b : FrameBuf) :
    tcRawOf b.b0 b.b1 = ((b.word.extractLsb' 16 16).sshiftRight 2).toInt :=
  congrArg (fun h : Half => (asr h 2).toInt) (upper_eq_extractLsb' b)

theorem intRawOf_eq_toInt_sshiftRight (b : FrameBuf) :
    intRawOf b.b2 b.b3 = ((b.word.extractLsb' 0 16).sshiftRight 4).toInt :=
  congrArg (fun h : Half => (asr h 4).toInt) (lower_eq_extractLsb' b)

/-- Settles O20: the record is `decodeFrame` of the frame held, and each of its fields is the shifted half, the field or
the bit of the frame word that R59 names. -/
theorem decodeReadsWholeRecord : Obligations.DecodeReadsWholeRecord := fun s hcnt =>
  ⟨decodeFrame s.buf, exec_frameOp_of_complete .decode hcnt,
    tcRawOf_eq_toInt_sshiftRight s.buf, tcRawOf_eq_toInt_tcField s.buf,
    intRawOf_eq_toInt_sshiftRight s.buf, intRawOf_eq_toInt_intField s.buf,
    faultD16Of_eq_getLsbD_word s.buf, scvOf_eq_getLsbD_word s.buf, scgOf_eq_getLsbD_word s.buf,
    ocOf_eq_getLsbD_word s.buf, rfl, rfl, tcDegOf_value _, intDegOf_value _⟩

/-! ### Each elementary output decides the bits under its mask, and they decide it -/

/-- Two frames agree in a field exactly when they agree under the mask of that field. -/
theorem frameBits_eq_iff {m : FrameWord} {lo n : Nat} (hm : m = (BitVec.allOnes n).setWidth 32 <<< lo)
    (hones : frameBits m lo n = BitVec.allOnes n) (x y : FrameWord) :
    frameBits x lo n = frameBits y lo n ↔ x &&& m = y &&& m := by
  refine ⟨fun h => ?_, fun h => frameBits_eq_of_and_eq h hones⟩
  apply BitVec.eq_of_getLsbD_eq
  intro i _
  by_cases hi : lo ≤ i ∧ i < lo + n
  · have hbit : x.getLsbD i = y.getLsbD i := by
      have hsub : i - lo < n := by omega
      simpa [frameBits, hsub, Nat.add_sub_cancel' hi.1] using congrArg (·.getLsbD (i - lo)) h
    rw [BitVec.getLsbD_and, BitVec.getLsbD_and, hbit]
  · have hout : m.getLsbD i = false := by
      rw [hm, BitVec.getLsbD_shiftLeft, BitVec.getLsbD_setWidth, BitVec.getLsbD_allOnes]
      by_cases hlo : i < lo
      · simp [hlo]
      · have hn : ¬ i - lo < n := by omega
        simp [hn]
    rw [BitVec.getLsbD_and, BitVec.getLsbD_and, hout, Bool.and_false, Bool.and_false]

/-- Two words agree in a bit exactly when they agree under the mask of that bit. -/
theorem getLsbD_eq_iff_and_twoPow {w k : Nat} (hk : k < w) (x y : BitVec w) :
    x.getLsbD k = y.getLsbD k ↔ x &&& BitVec.twoPow w k = y &&& BitVec.twoPow w k := by
  refine ⟨fun h => ?_, fun h => getLsbD_eq_of_and_eq h (by simp [hk])⟩
  rw [BitVec.and_twoPow, BitVec.and_twoPow, h]

section
variable (b c : FrameBuf)

theorem tcRawOf_eq_iff :
    tcRawOf b.b0 b.b1 = tcRawOf c.b0 c.b1 ↔ b.word &&& FrameOp.reads .tcraw = c.word &&& FrameOp.reads .tcraw := by
  rw [tcRawOf_eq_toInt_tcField, tcRawOf_eq_toInt_tcField, BitVec.toInt_inj]
  exact frameBits_eq_iff (by decide) (by decide) b.word c.word

theorem intRawOf_eq_iff :
    intRawOf b.b2 b.b3 = intRawOf c.b2 c.b3 ↔
      b.word &&& FrameOp.reads .intraw = c.word &&& FrameOp.reads .intraw := by
  rw [intRawOf_eq_toInt_intField, intRawOf_eq_toInt_intField, BitVec.toInt_inj]
  exact frameBits_eq_iff (by decide) (by decide) b.word c.word

theorem faultD16Of_eq_iff :
    faultD16Of b.b1 = faultD16Of c.b1 ↔ b.word &&& FrameOp.reads .fd16 = c.word &&& FrameOp.reads .fd16 := by
  rw [faultD16Of_eq_getLsbD_word, faultD16Of_eq_getLsbD_word]
  exact getLsbD_eq_iff_and_twoPow (by decide) b.word c.word

theorem scvOf_eq_iff :
    scvOf b.b3 = scvOf c.b3 ↔ b.word &&& FrameOp.reads .scv = c.word &&& FrameOp.reads .scv := by
  rw [scvOf_eq_getLsbD_word, scvOf_eq_getLsbD_word]
  exact getLsbD_eq_iff_and_twoPow (by decide) b.word c.word

theorem scgOf_eq_iff :
    scgOf b.b3 = scgOf c.b3 ↔ b.word &&& FrameOp.reads .scg = c.word &&& FrameOp.reads .scg := by
  rw [scgOf_eq_getLsbD_word, scgOf_eq_getLsbD_word]
  exact getLsbD_eq_iff_and_twoPow (by decide) b.word c.word

theorem ocOf_eq_iff :
    ocOf b.b3 = ocOf c.b3 ↔ b.word &&& FrameOp.reads .oc = c.word &&& FrameOp.reads .oc := by
  rw [ocOf_eq_getLsbD_word, ocOf_eq_getLsbD_word]
  exact getLsbD_eq_iff_and_twoPow (by decide) b.word c.word

end

/-! ### A composite output reads what its parts read -/

/-- Two words that agree under a union of masks agree under each of them. -/
theorem and_eq_of_and_or_eq {w : Nat} {x y m n : BitVec w} (h : x &&& (m ||| n) = y &&& (m ||| n)) :
    x &&& m = y &&& m := by
  apply BitVec.eq_of_getLsbD_eq
  intro i _
  rw [BitVec.getLsbD_and, BitVec.getLsbD_and]
  cases hm : m.getLsbD i
  case false => rw [Bool.and_false, Bool.and_false]
  case true => rw [getLsbD_eq_of_and_eq h (by rw [BitVec.getLsbD_or, hm, Bool.true_or])]

theorem and_or_eq_and_or_iff {w : Nat} (x y m n : BitVec w) :
    x &&& (m ||| n) = y &&& (m ||| n) ↔ x &&& m = y &&& m ∧ x &&& n = y &&& n := by
  refine ⟨fun h => ⟨and_eq_of_and_or_eq h, ?_⟩, fun ⟨hm, hn⟩ => ?_⟩
  · rw [BitVec.or_comm] at h
    exact and_eq_of_and_or_eq h
  · rw [BitVec.and_or_distrib_left, BitVec.and_or_distrib_left, hm, hn]

theorem reads_fault : FrameOp.reads .fault = FrameOp.reads .scv ||| FrameOp.reads .scg ||| FrameOp.reads .oc := by
  decide

theorem reads_sfault : FrameOp.reads .sfault = FrameOp.reads .fd16 ||| FrameOp.reads .fault := by
  decide

theorem reads_decode :
    FrameOp.reads .decode =
      FrameOp.reads .tcraw ||| FrameOp.reads .intraw ||| FrameOp.reads .fd16 ||| FrameOp.reads .fault := by
  decide

theorem faultOf_eq_false_iff (b3 : Byte) :
    faultOf b3 = false ↔ scvOf b3 = false ∧ scgOf b3 = false ∧ ocOf b3 = false := by
  rw [faultOf, Bool.or_eq_false_iff, Bool.or_eq_false_iff, and_assoc]

theorem sensorFaultOf_eq_false_iff (b1 b3 : Byte) :
    sensorFaultOf b1 b3 = false ↔ faultD16Of b1 = false ∧ faultOf b3 = false :=
  Bool.or_eq_false_iff

/-- Agreement in the bits FAULT reads is agreement of its three flags. -/
theorem and_reads_fault_eq_iff (b c : FrameBuf) :
    b.word &&& FrameOp.reads .fault = c.word &&& FrameOp.reads .fault ↔
      scvOf b.b3 = scvOf c.b3 ∧ scgOf b.b3 = scgOf c.b3 ∧ ocOf b.b3 = ocOf c.b3 := by
  rw [reads_fault, and_or_eq_and_or_iff, and_or_eq_and_or_iff, ← scvOf_eq_iff, ← scgOf_eq_iff, ← ocOf_eq_iff,
    and_assoc]

/-- Agreement in the bits SFAULT reads is agreement of its four flags. -/
theorem and_reads_sfault_eq_iff (b c : FrameBuf) :
    b.word &&& FrameOp.reads .sfault = c.word &&& FrameOp.reads .sfault ↔
      faultD16Of b.b1 = faultD16Of c.b1 ∧ scvOf b.b3 = scvOf c.b3 ∧ scgOf b.b3 = scgOf c.b3 ∧
        ocOf b.b3 = ocOf c.b3 := by
  rw [reads_sfault, and_or_eq_and_or_iff, ← faultD16Of_eq_iff, and_reads_fault_eq_iff]

/-- The record tells two frames apart exactly when they differ in a bit DECODE reads (R59, R62). -/
theorem decodeFrame_eq_iff (b c : FrameBuf) :
    decodeFrame b = decodeFrame c ↔ b.word &&& FrameOp.reads .decode = c.word &&& FrameOp.reads .decode := by
  refine ⟨fun h => ?_, decodeFrame_eq_of_reads_eq⟩
  rw [reads_decode, and_or_eq_and_or_iff, and_or_eq_and_or_iff, and_or_eq_and_or_iff, ← tcRawOf_eq_iff,
    ← intRawOf_eq_iff, ← faultD16Of_eq_iff, and_reads_fault_eq_iff]
  obtain ⟨htc, hint, -, hscv, hscg, hoc, hd16, -⟩ := DecodedReading.mk.inj h
  exact ⟨⟨⟨htc, hint⟩, hd16⟩, hscv, hscg, hoc⟩

/-! ### The bits an output reads are the bits it depends on -/

/-- R62, no other bits: frames that agree in the bits an operation reads give the same output. -/
theorem output_eq_of_and_reads_eq {op : FrameOp} {b c : FrameBuf}
    (h : b.word &&& op.reads = c.word &&& op.reads) : frameOutput op b = frameOutput op c := by
  cases op
  case decode => exact congrArg Output.record ((decodeFrame_eq_iff b c).mpr h)
  case tcraw => exact congrArg Output.tcRaw ((tcRawOf_eq_iff b c).mpr h)
  case intraw => exact congrArg Output.intRaw ((intRawOf_eq_iff b c).mpr h)
  case fd16 => exact congrArg Output.faultD16 ((faultD16Of_eq_iff b c).mpr h)
  case scv => exact congrArg Output.scvFault ((scvOf_eq_iff b c).mpr h)
  case scg => exact congrArg Output.scgFault ((scgOf_eq_iff b c).mpr h)
  case oc => exact congrArg Output.ocFault ((ocOf_eq_iff b c).mpr h)
  case fault =>
    obtain ⟨hscv, hscg, hoc⟩ := (and_reads_fault_eq_iff b c).mp h
    simp only [frameOutput, faultOf, hscv, hscg, hoc]
  case sfault =>
    obtain ⟨hd16, hscv, hscg, hoc⟩ := (and_reads_sfault_eq_iff b c).mp h
    simp only [frameOutput, sensorFaultOf, faultOf, hd16, hscv, hscg, hoc]
  case tcdeg => exact congrArg (fun v => Output.tcDeg (tcDegOf v)) ((tcRawOf_eq_iff b c).mpr h)
  case intdeg => exact congrArg (fun v => Output.intDeg (intDegOf v)) ((intRawOf_eq_iff b c).mpr h)

/-- R62, every listed bit: an output is what it is on the zero frame only when each bit it reads is 0. Of two arbitrary
frames this fails, since FAULT and SFAULT are ORs. -/
theorem and_reads_eq_of_output_eq_zeroFrame {op : FrameOp} {b : FrameBuf}
    (h : frameOutput op b = frameOutput op (FrameBuf.ofWord 0#32)) :
    b.word &&& op.reads = (FrameBuf.ofWord 0#32).word &&& op.reads := by
  cases op
  case decode => exact (decodeFrame_eq_iff b _).mp (Output.record.inj h)
  case tcraw => exact (tcRawOf_eq_iff b _).mp (Output.tcRaw.inj h)
  case intraw => exact (intRawOf_eq_iff b _).mp (Output.intRaw.inj h)
  case fd16 => exact (faultD16Of_eq_iff b _).mp (Output.faultD16.inj h)
  case scv => exact (scvOf_eq_iff b _).mp (Output.scvFault.inj h)
  case scg => exact (scgOf_eq_iff b _).mp (Output.scgFault.inj h)
  case oc => exact (ocOf_eq_iff b _).mp (Output.ocFault.inj h)
  case fault => exact (and_reads_fault_eq_iff b _).mpr ((faultOf_eq_false_iff b.b3).mp (Output.fault.inj h))
  case sfault =>
    obtain ⟨hd16, hfault⟩ := (sensorFaultOf_eq_false_iff b.b1 b.b3).mp (Output.sensorFault.inj h)
    exact (and_reads_sfault_eq_iff b _).mpr ⟨hd16, (faultOf_eq_false_iff b.b3).mp hfault⟩
  case tcdeg => exact (tcRawOf_eq_iff b _).mp (congrArg Fixed.raw (Output.tcDeg.inj h))
  case intdeg => exact (intRawOf_eq_iff b _).mp (congrArg Fixed.raw (Output.intDeg.inj h))

/-- Settles O27: a flip outside the mask leaves the bits the operation reads; a flip of a bit under it is seen on the
zero frame. -/
theorem outputsReadExactlyTheirBits : Obligations.OutputsReadExactlyTheirBits := by
  intro s op k hk
  simp only [answer_frameOp_holdFrame, Option.some.injEq, ne_eq]
  refine ⟨fun hout w => output_eq_of_and_reads_eq ?_, fun hin => ⟨0#32, fun h => ?_⟩⟩
  · have hflip : (1#32 <<< k) &&& op.reads = 0#32 := by
      rw [← BitVec.twoPow_eq, BitVec.twoPow_and, hout]
      rfl
    rw [word_ofWord, word_ofWord]
    exact xor_and_of_and_eq_zero hflip w
  · have hread := and_reads_eq_of_output_eq_zeroFrame h
    rw [word_ofWord, word_ofWord] at hread
    have hbit : (0#32 ^^^ 1#32 <<< k).getLsbD k = (0#32).getLsbD k := getLsbD_eq_of_and_eq hread hin
    simp [hk] at hbit

end Sys2Proof.Machine
end

section
/-!
PROOFS. The two temperatures on the ports (spec/41_temperature.md, R73): the arithmetic shifts of the halves at 16 bits,
the sign-extended fields at every allowed width.
-/

namespace Sys2Proof.Machine

/-! ### What sign extension keeps -/

/-- A vector is the low part of its sign extension. -/
theorem setWidth_signExtend_of_le {n v : Nat} (h : n ≤ v) (x : BitVec n) : (x.signExtend v).setWidth n = x := by
  apply BitVec.eq_of_getLsbD_eq
  intro i hi
  have hv : i < v := by omega
  simp [BitVec.getElem_signExtend, hi, hv]

/-- Extending the sign twice is extending it once. -/
theorem signExtend_signExtend_of_le {n v u : Nat} (hnv : n ≤ v) (hvu : v ≤ u) (x : BitVec n) :
    (x.signExtend v).signExtend u = x.signExtend u := by
  apply BitVec.eq_of_toInt_eq
  rw [BitVec.toInt_signExtend_of_le hvu, BitVec.toInt_signExtend_of_le hnv,
    BitVec.toInt_signExtend_of_le (hnv.trans hvu)]

/-- From its own sign bit upwards, a sign-extended field of a frame shows the frame bit its sign is. -/
theorem getLsbD_signExtend_frameBits {w : FrameWord} {lo m v k : Nat} (hm : m ≤ k) (hk : k < v) :
    ((frameBits w lo (m + 1)).signExtend v).getLsbD k = w.getLsbD (lo + m) := by
  have hmsb : (frameBits w lo (m + 1)).msb = w.getLsbD (lo + m) := by
    simp [BitVec.msb_eq_getLsbD_last, frameBits]
  rw [BitVec.getLsbD_signExtend, decide_eq_true hk, Bool.true_and]
  by_cases hsign : k < m + 1
  · obtain rfl : k = m := by omega
    simp [frameBits]
  · rw [if_neg hsign, hmsb]

/-! ### The ports -/

/-- R73: at 16 bits the port `tc_raw` is TCRAW's intermediate vector. -/
theorem tcPortAt_sixteen (b : FrameBuf) : tcPortAt 16 b = (b.word.extractLsb' 16 16).sshiftRight 2 :=
  calc tcPortAt 16 b = asr b.upper 2 := (tcShifted_eq_signExtend b).symm
    _ = (b.word.extractLsb' 16 16).sshiftRight 2 := by rw [upper_eq_extractLsb', asr]

/-- R73: at 16 bits the port `int_raw` is INTRAW's intermediate vector. -/
theorem intPortAt_sixteen (b : FrameBuf) : intPortAt 16 b = (b.word.extractLsb' 0 16).sshiftRight 4 :=
  calc intPortAt 16 b = asr b.lower 4 := (intShifted_eq_signExtend b).symm
    _ = (b.word.extractLsb' 0 16).sshiftRight 4 := by rw [lower_eq_extractLsb', asr]

section
variable {outW : Nat}

theorem toInt_tcPortAt (h : 14 ≤ outW) (b : FrameBuf) : (tcPortAt outW b).toInt = (decodeFrame b).tcRaw :=
  (BitVec.toInt_signExtend_of_le h).trans (tcRawOf_eq_toInt_tcField b).symm

theorem toInt_intPortAt (h : 12 ≤ outW) (b : FrameBuf) : (intPortAt outW b).toInt = (decodeFrame b).intRaw :=
  (BitVec.toInt_signExtend_of_le h).trans (intRawOf_eq_toInt_intField b).symm

end

/-- Settles O33: each port is its field sign-extended, and an allowed width is at least that of either field, so the port
keeps the field's value and low bits and repeats its sign above them. -/
theorem portsCarrySignExtendedFields : Obligations.PortsCarrySignExtendedFields := by
  refine ⟨fun s => ⟨tcPortAt_sixteen s.buf, intPortAt_sixteen s.buf⟩, fun s outW hw => ?_⟩
  have htc : 14 ≤ outW := of_decide_eq_true hw
  have hint : 12 ≤ outW := by omega
  refine ⟨rfl, rfl, toInt_tcPortAt htc s.buf, toInt_intPortAt hint s.buf, ?_, ?_, ?_, ?_, fun wider hwide => ⟨?_, ?_⟩⟩
  · exact fun k hsign hk => getLsbD_signExtend_frameBits hsign hk
  · exact fun k hsign hk => getLsbD_signExtend_frameBits hsign hk
  · exact setWidth_signExtend_of_le htc (tcField s.buf.word)
  · exact setWidth_signExtend_of_le hint (intField s.buf.word)
  · exact (signExtend_signExtend_of_le htc hwide (tcField s.buf.word)).symm
  · exact (signExtend_signExtend_of_le hint hwide (intField s.buf.word)).symm

end Sys2Proof.Machine
end

section
/-!
PROOFS. The scaling to degrees Celsius (spec/43_scaling.md): the exact values and their parts (R84, R85), their ranges and
steps (R87), two decimal places (R88), and the fault gate before a temperature (R111).
-/

namespace Sys2Proof.Machine

/-! ### A fixed-point number: its step and its two parts -/

/-- The worth of the lowest bit of a fixed-point number (R84, R85). -/
def Fixed.step (t : Fixed) : Rat := 1 / (2 ^ t.frac : Nat)

theorem Fixed.value_eq_raw_mul_step (t : Fixed) : t.value = t.raw * t.step :=
  div_eq_mul_one_div _ _

theorem Fixed.step_pos (t : Fixed) : 0 < t.step :=
  one_div_pos.mpr (Nat.cast_pos.mpr (Nat.two_pow_pos t.frac))

theorem Fixed.intPart_eq_floor_value (t : Fixed) : t.intPart = ⌊t.value⌋ :=
  (Rat.floor_intCast_div_natCast t.raw (2 ^ t.frac)).symm

theorem Fixed.fracPart_nonneg (t : Fixed) : 0 ≤ t.fracPart :=
  Int.emod_nonneg _ (Int.natCast_ne_zero.mpr (Nat.two_pow_pos t.frac).ne')

theorem Fixed.fracPart_lt (t : Fixed) : t.fracPart < (2 ^ t.frac : Nat) :=
  Int.emod_lt_of_pos _ (Int.natCast_pos.mpr (Nat.two_pow_pos t.frac))

/-- The integer part and the fraction, in steps, make up the value: division with remainder of the raw number. -/
theorem Fixed.value_eq_intPart_add_fracPart_mul_step (t : Fixed) : t.value = t.intPart + t.fracPart * t.step := by
  have hscale : ((2 ^ t.frac : Nat) : Rat) * t.step = 1 :=
    mul_one_div_cancel (Nat.cast_ne_zero.mpr (Nat.two_pow_pos t.frac).ne')
  have hraw : (t.raw : Rat) = t.intPart * (2 ^ t.frac : Nat) + t.fracPart := by
    exact_mod_cast (Int.ediv_mul_add_emod t.raw (2 ^ t.frac : Nat)).symm
  calc t.value = (t.intPart * (2 ^ t.frac : Nat) + t.fracPart) * t.step := by rw [t.value_eq_raw_mul_step, hraw]
    _ = t.intPart * ((2 ^ t.frac : Nat) * t.step) + t.fracPart * t.step := by ring
    _ = t.intPart + t.fracPart * t.step := by rw [hscale, mul_one]

/-- Bounds on the raw number, in steps, bound the value. -/
theorem Fixed.value_bounds {t : Fixed} {lo hi : Int} (h : lo ≤ t.raw ∧ t.raw ≤ hi) :
    lo * t.step ≤ t.value ∧ t.value ≤ hi * t.step := by
  rw [t.value_eq_raw_mul_step]
  exact ⟨mul_le_mul_of_nonneg_right (Int.cast_le.mpr h.1) t.step_pos.le,
    mul_le_mul_of_nonneg_right (Int.cast_le.mpr h.2) t.step_pos.le⟩

/-! ### The two scalings -/

/-- R84: the thermocouple temperature is in steps of 0.25. -/
theorem tcDegOf_step (v : Int) : (tcDegOf v).step = 25 / 100 := by
  norm_num [tcDegOf, Fixed.step]

/-- R85: the internal temperature is in steps of 0.0625. -/
theorem intDegOf_step (v : Int) : (intDegOf v).step = 625 / 10000 := by
  norm_num [intDegOf, Fixed.step]

theorem tcDegOf_value_eq_mul (v : Int) : (tcDegOf v).value = v * (25 / 100) := by
  rw [Fixed.value_eq_raw_mul_step, tcDegOf_step, tcDegOf]

theorem intDegOf_value_eq_mul (v : Int) : (intDegOf v).value = v * (625 / 10000) := by
  rw [Fixed.value_eq_raw_mul_step, intDegOf_step, intDegOf]

/-- Settles O24: the answer is the field read with two or four fraction bits, and a fixed-point number is its floor and a
remainder of less than `2 ^ frac` steps. -/
theorem degreesCelsiusAreExact : Obligations.DegreesCelsiusAreExact := by
  refine ⟨fun s hcnt => ⟨tcDegOf (tcRawOf s.buf.b0 s.buf.b1), exec_frameOp_of_complete .tcdeg hcnt, ?_,
      Fixed.intPart_eq_floor_value _, Fixed.fracPart_nonneg _, Int.le_of_lt_add_one (Fixed.fracPart_lt _), ?_⟩,
    fun s hcnt => ⟨intDegOf (intRawOf s.buf.b2 s.buf.b3), exec_frameOp_of_complete .intdeg hcnt, ?_,
      Fixed.intPart_eq_floor_value _, Fixed.fracPart_nonneg _, Int.le_of_lt_add_one (Fixed.fracPart_lt _), ?_⟩⟩
  · rw [tcDegOf_value_eq_mul, tcRawOf_eq_toInt_tcField, tcField, frameBits]
  · rw [← tcDegOf_step (tcRawOf s.buf.b0 s.buf.b1)]
    exact Fixed.value_eq_intPart_add_fracPart_mul_step _
  · rw [intDegOf_value_eq_mul, intRawOf_eq_toInt_intField, intField, frameBits]
  · rw [← intDegOf_step (intRawOf s.buf.b2 s.buf.b3)]
    exact Fixed.value_eq_intPart_add_fracPart_mul_step _

/-! ### Ranges -/

theorem decodeFrame_tcRaw (b : FrameBuf) : (decodeFrame b).tcRaw = tcRawOf b.b0 b.b1 := rfl

theorem decodeFrame_intRaw (b : FrameBuf) : (decodeFrame b).intRaw = intRawOf b.b2 b.b3 := rfl

/-- R67: the thermocouple field has 14 bits. -/
theorem decodeFrame_tcRaw_bounds (b : FrameBuf) : -8192 ≤ (decodeFrame b).tcRaw ∧ (decodeFrame b).tcRaw ≤ 8191 := by
  rw [decodeFrame_tcRaw, tcRawOf_eq_toInt_tcField]
  exact ⟨BitVec.le_toInt _, Int.le_of_lt_add_one BitVec.toInt_lt⟩

/-- R67: the internal field has 12 bits. -/
theorem decodeFrame_intRaw_bounds (b : FrameBuf) :
    -2048 ≤ (decodeFrame b).intRaw ∧ (decodeFrame b).intRaw ≤ 2047 := by
  rw [decodeFrame_intRaw, intRawOf_eq_toInt_intField]
  exact ⟨BitVec.le_toInt _, Int.le_of_lt_add_one BitVec.toInt_lt⟩

theorem tcDegOf_value_bounds (b : FrameBuf) :
    -2048 ≤ (tcDegOf (decodeFrame b).tcRaw).value ∧ (tcDegOf (decodeFrame b).tcRaw).value ≤ 204775 / 100 := by
  have h := Fixed.value_bounds (t := tcDegOf _) (decodeFrame_tcRaw_bounds b)
  rw [tcDegOf_step] at h
  norm_num at h ⊢
  exact h

theorem intDegOf_value_bounds (b : FrameBuf) :
    -128 ≤ (intDegOf (decodeFrame b).intRaw).value ∧ (intDegOf (decodeFrame b).intRaw).value ≤ 1279375 / 10000 := by
  have h := Fixed.value_bounds (t := intDegOf _) (decodeFrame_intRaw_bounds b)
  rw [intDegOf_step] at h
  norm_num at h ⊢
  exact h

/-- Settles O35: the bounds are those of the two fields, in steps, and the raw field is the number of steps. -/
theorem degreeRangesAndSteps : Obligations.DegreeRangesAndSteps := by
  intro b
  obtain ⟨htcLo, htcHi⟩ := tcDegOf_value_bounds b
  obtain ⟨hintLo, hintHi⟩ := intDegOf_value_bounds b
  exact ⟨htcLo, htcHi, ⟨_, tcDegOf_value_eq_mul _⟩, hintLo, hintHi, ⟨_, intDegOf_value_eq_mul _⟩⟩

/-! ### Two decimal places -/

theorem tcDegOf_value_mul_hundred (v : Int) : (tcDegOf v).value * 100 = hundredthsOf v := by
  rw [tcDegOf_value, hundredthsOf, Int.cast_mul]
  ring

/-- R88: the last two digits of a number of quarters, in hundredths, are those of 25 times its remainder by 4. -/
theorem natAbs_hundredthsOf_mod_hundred (v : Int) : (hundredthsOf v).natAbs % 100 = 25 * (v.natAbs % 4) := by
  rw [hundredthsOf, Int.natAbs_mul]
  exact Nat.mul_mod_mul_left 25 v.natAbs 4

/-- Settles O36: a quarter is 25 hundredths, and there are four remainders by 4. -/
theorem twoDecimalPlacesAreExact : Obligations.TwoDecimalPlacesAreExact := by
  intro b
  refine ⟨tcDegOf_value_mul_hundred _, ?_⟩
  rw [natAbs_hundredthsOf_mod_hundred]
  omega

/-! ### The fault gate -/

/-- The gate's condition (R79, R111) as a mask on the frame word: `sensor_fault` is 0 when D16, D2, D1 and D0 are. -/
theorem sensorFaultOf_eq_false_iff_mask (b : FrameBuf) :
    sensorFaultOf b.b1 b.b3 = false ↔ b.word &&& 0x00010007#32 = 0#32 := by
  have hzero : (FrameBuf.ofWord 0#32).word &&& FrameOp.reads .sfault = 0#32 := by decide
  refine ⟨fun h => ?_, fun h => ?_⟩
  · exact (and_reads_eq_of_output_eq_zeroFrame (op := .sfault) (congrArg Output.sensorFault h)).trans hzero
  · exact Output.sensorFault.inj (output_eq_of_and_reads_eq (op := .sfault) (h.trans hzero.symm))

/-- The record's field is the gate's condition, by the same mask. -/
theorem decodeFrame_sensorFault (b : FrameBuf) :
    (decodeFrame b).sensorFault = decide (b.word &&& 0x00010007#32 ≠ 0#32) := by
  rw [Bool.eq_iff_iff, decide_eq_true_iff, ne_eq, ← sensorFaultOf_eq_false_iff_mask, Bool.not_eq_false, decodeFrame]

theorem State.result_of_cnt_ne_four {s : State} (h : s.cnt ≠ 4) : s.result = none :=
  State.result_of_not_valid (Bool.eq_false_of_not_eq_true (mt s.valid_iff.mp h))

/-- R111: the gate in its three cases. -/
theorem State.gatedTemperature_eq (s : State) :
    s.gatedTemperature =
      if s.cnt = 4 then
        if s.buf.word &&& 0x00010007#32 = 0#32 then some (tcDegOf (tcRawOf s.buf.b0 s.buf.b1)) else none
      else none := by
  by_cases hcnt : s.cnt = 4
  · by_cases hword : s.buf.word &&& 0x00010007#32 = 0#32 <;>
      simp [gatedTemperature, result_of_valid (s.valid_iff.mpr hcnt), decodeFrame_sensorFault, decodeFrame_tcRaw, hcnt,
        hword]
  · simp [gatedTemperature, result_of_cnt_ne_four hcnt, hcnt]

/-- R110, R111: the report after a read that delivered a frame, in the same three cases. -/
theorem callerReport_frame_eq (f : FrameBuf) (s : State) :
    callerReport (.frame f) s =
      if s.cnt = 4 then
        if s.buf.word &&& 0x00010007#32 = 0#32 then .temperature (25 * tcRawOf s.buf.b0 s.buf.b1)
        else .sensorFault (decodeFrame s.buf)
      else .noFrame := by
  by_cases hcnt : s.cnt = 4
  · by_cases hword : s.buf.word &&& 0x00010007#32 = 0#32 <;>
      simp [callerReport, State.result_of_valid (s.valid_iff.mpr hcnt), decodeFrame_sensorFault, decodeFrame_tcRaw, hcnt,
        hword, hundredthsOf]
  · simp [callerReport, State.result_of_cnt_ne_four hcnt, hcnt]

/-- Settles O49: gate and report tell the same three cases apart, only one of them gives a temperature, and the report of
a fault is no success. -/
theorem faultGateWithholdsTemperature : Obligations.FaultGateWithholdsTemperature := by
  intro s
  refine ⟨fun t => ?_, fun f h => ?_, fun f hcnt hword => ?_⟩
  · rw [s.gatedTemperature_eq]
    split_ifs with hcnt hword <;> simp [*, eq_comm (a := t)]
  · rw [callerReport_frame_eq]
    split_ifs with hcnt hword <;> simp [*, eq_comm (a := h)]
  · rw [callerReport_frame_eq, if_pos hcnt, if_neg hword]
    exact ⟨rfl, rfl⟩

end Sys2Proof.Machine
end

section
/-!
PROOFS. START, BYTE and IDLE (spec/44_commands.md): a frame boundary (R90), a byte accepted (R91), a byte too many (R92)
and the empty step (R93).
-/

namespace Sys2Proof.Machine

/-! ### START -/

/-- R90: at `cnt = 0` a frame boundary has only the flag to clear. -/
theorem State.frameBoundary_of_cnt_eq_zero {s : State} (h : s.cnt = 0) : s.frameBoundary = { s with ovr := false } := by
  rw [State.frameBoundary, ← h]

theorem bytesIn_cons (i : Instr) (is : List Instr) : bytesIn (i :: is) = bytesIn [i] + bytesIn is :=
  List.countP_append (l₁ := [i]) (l₂ := is)

/-- One operation advances the counter by at most the byte it delivers; a boundary and an overrun do not advance it. -/
theorem cnt_le_of_exec {i : Instr} {s t : State} (h : exec i s = .next t) : t.cnt.val ≤ s.cnt.val + bytesIn [i] := by
  obtain ⟨rfl, rfl⟩ | ⟨rfl, rfl⟩ | ⟨din, hc, rfl, rfl⟩ | ⟨din, hc, rfl, rfl⟩ | ⟨rfl, rfl⟩ | ⟨op, f, rfl, rfl⟩ :=
    exec_cases h
  · simp
  · simp
  · simp [bytesIn, hostAction]
  · simp
  · simp
  · simp

/-- A run advances the counter by at most the number of bytes it delivers, whatever boundaries stand in it. -/
theorem exists_runInstrs_cnt_le (is : List Instr) (s : State) :
    ∃ t : State, runInstrs is s = .next t ∧ t.cnt.val ≤ s.cnt.val + bytesIn is := by
  induction is generalizing s with
  | nil => exact ⟨s, rfl, Nat.le_add_right _ _⟩
  | cons i is ih =>
    obtain ⟨u, hu⟩ := exec_total i s
    obtain ⟨t, ht, hcnt⟩ := ih u
    have hstep := cnt_le_of_exec hu
    have hbytes := bytesIn_cons i is
    exact ⟨t, (runInstrs_cons hu is).trans ht, by omega⟩

/-- Settles O11: START is a frame boundary, a run that delivers fewer than four bytes after it ends below `cnt = 4`, and
the bits `rst` and `start` alone select it. -/
theorem startMarksFrameBoundary : Obligations.StartMarksFrameBoundary := by
  refine ⟨exec_start, fun s hcnt => ?_, fun s is hbytes => ?_, fun c hr hs => decodeCommand_of_start hr hs⟩
  · rw [exec_start, State.frameBoundary_of_cnt_eq_zero hcnt]
  · obtain ⟨t, ht, hle⟩ := exists_runInstrs_cnt_le is s.frameBoundary
    have hzero : s.frameBoundary.cnt.val = 0 := congrArg Fin.val s.frameBoundary_cnt
    have hvalid : t.valid = false := t.not_valid_iff.mpr (by omega)
    exact ⟨t, (runInstrs_cons (exec_start s) is).trans ht, hvalid, State.result_of_not_valid hvalid⟩

/-! ### BYTE accepted -/

/-- The registers after a write, each in terms of the registers before (R10). -/
theorem FrameBuf.get_set (b : FrameBuf) (i j : Fin 4) (v : Byte) :
    (b.set i v).get j = if j = i then v else b.get j := by
  by_cases hji : j = i
  · rw [if_pos hji, hji, FrameBuf.get_set_same]
  · rw [if_neg hji, FrameBuf.get_set_other b v hji]

/-- R91: the fourth byte is the one that completes the frame. -/
theorem State.acceptByte_valid_iff (s : State) (din : Byte) (h : s.cnt.val < 4) :
    (s.acceptByte din h).valid = true ↔ s.cnt.val = 3 := by
  rw [State.valid_iff, State.acceptByte_cnt, Fin.ext_iff]
  exact Nat.succ_inj

/-- R30 (d), read for a frame that is not complete: no overrun is recorded. -/
theorem State.Inv.ovr_eq_false {s : State} (hinv : s.Inv) (h : s.cnt.val < 4) : s.ovr = false :=
  Bool.eq_false_of_not_eq_true fun hovr => s.cnt_eq_four_iff_not_lt.mp (hinv hovr) h

/-- Settles O12: the next state is that of `acceptByte`, and the mask of BYTE says what the three control bits are. -/
theorem byteAcceptedStoresAtCounter : Obligations.ByteAcceptedStoresAtCounter := by
  refine ⟨fun s din hlt => ?_, fun c hc => ?_⟩
  · have hregs : ∀ i : Fin 4, (s.acceptByte din hlt).buf.get i = if i.val = s.cnt.val then din else s.buf.get i := by
      intro i
      rw [State.acceptByte_buf, FrameBuf.get_set]
      simp only [Fin.ext_iff]
    exact ⟨s.acceptByte din hlt, exec_byte_accepted din hlt, hregs, rfl, State.acceptByte_ovr s din hlt,
      fun hinv => hinv.ovr_eq_false hlt, s.acceptByte_valid_iff din hlt, State.acceptByte_input s din hlt,
      State.acceptByte_lastRead s din hlt, State.acceptByte_freeNext s din hlt⟩
  · obtain ⟨hr, hs, hb⟩ := (matches_byte_iff c).mp hc
    exact decodeCommand_of_bv hr hs hb

/-! ### BYTE overrun -/

/-- R92: an overrun keeps `cnt = 4`, so every byte after it is an overrun too, and the flag is already set. -/
theorem runInstrs_bytes_after_overrun (bytes : List Byte) {s : State} (h : s.cnt = 4) :
    runInstrs (bytes.map .byte) s.raiseOverrun = .next s.raiseOverrun := by
  induction bytes with
  | nil => rfl
  | cons din bytes ih =>
    have hover : exec (.byte din) s.raiseOverrun = .next s.raiseOverrun :=
      exec_byte_overrun din (s.raiseOverrun.cnt_eq_four_iff_not_lt.mp h)
    exact (runInstrs_cons hover _).trans ih

/-- Settles O13: the first byte at `cnt = 4` raises the flag, the others find it raised, and by `ovr_iff_of_exec` only
START and RESET clear it. -/
theorem byteOverrunOnlySetsFlag : Obligations.ByteOverrunOnlySetsFlag := by
  have hover : ∀ {s : State} (din : Byte), s.cnt = 4 → exec (.byte din) s = .next s.raiseOverrun :=
    fun {s} din hcnt => exec_byte_overrun din (s.cnt_eq_four_iff_not_lt.mp hcnt)
  refine ⟨fun s din hcnt => ⟨hover din hcnt, rfl, State.result_set_ovr s true⟩, fun s din more hcnt => ?_,
    fun i s t hexec hs ht => ?_⟩
  · exact (runInstrs_cons (hover din hcnt) _).trans (runInstrs_bytes_after_overrun more hcnt)
  · by_contra hi
    obtain ⟨hstart, hreset⟩ := not_or.mp hi
    have hkept : t.ovr = true := (ovr_iff_of_exec hexec).mpr (.inl ⟨hs, hstart, hreset⟩)
    exact Bool.false_ne_true (ht.symm.trans hkept)

/-! ### IDLE -/

/-- R93 over a sequence: the IDLEs in it may be left out. -/
theorem runInstrs_filter_ne_idle (is : List Instr) (s : State) :
    runInstrs (is.filter (· ≠ .idle)) s = runInstrs is s := by
  induction is generalizing s with
  | nil => rfl
  | cons i is ih =>
    by_cases hi : i = .idle
    · rw [hi, List.filter_cons_of_neg (by simp), ih, runInstrs_cons (exec_idle s)]
    · obtain ⟨t, ht⟩ := exec_total i s
      rw [List.filter_cons_of_pos (by simpa using hi), runInstrs_cons ht, runInstrs_cons ht, ih]

/-- Settles O14: `exec_idle`, the induction above, and the mask of IDLE. -/
theorem idleChangesNothing : Obligations.IdleChangesNothing := by
  refine ⟨exec_idle, runInstrs_filter_ne_idle, fun c hc => ?_⟩
  obtain ⟨hr, hs, hb⟩ := (matches_idle_iff c).mp hc
  exact decodeCommand_of_none hr hs hb

end Sys2Proof.Machine
end

section
/-!
PROOFS. The step (spec/44_commands.md): encoding and decoding again (R48, R52), the event a step takes off the input (R42),
the step function (R89), RESET (R114), and a run of steps as a run of operations (R124).
-/

namespace Sys2Proof

/-! ### Decoding undoes encoding -/

theorem decodeCommand_byteWord (din : Byte) : decodeCommand (byteWord din) = .byte din := by
  rw [decodeCommand_of_bv (rstBit_byteWord din) (startBit_byteWord din) (bvBit_byteWord din),
    BitVec.setWidth_eq_extractLsb' (by decide)]
  exact congrArg Instr.byte (dinBits_byteWord din)

theorem decodeEvent_encode (i : Instr) : decodeEvent (encode i) = i := by
  cases i
  case byte din => exact decodeCommand_byteWord din
  all_goals rfl

/-- Settles O1: the word of a BYTE carries the byte, and every other operation has one fixed event. -/
theorem encodeDecodeRoundTrip : Obligations.EncodeDecodeRoundTrip :=
  fun i _ => decodeEvent_encode i

/-- Settles O3, by evaluating the decoder on the eight words. -/
theorem commandWordsFromTheVectors : Obligations.CommandWordsFromTheVectors := by
  unfold Obligations.CommandWordsFromTheVectors
  decide

end Sys2Proof

namespace Sys2Proof.Machine

/-! ### The event of a step -/

theorem step_of_input_cons {s : State} {e : HostEvent} {rest : List HostEvent} (h : s.input = e :: rest) :
    step s = exec (decodeEvent e) { s with input := rest } := by
  rw [step_eq, nextInstr_cons h, State.takeInput, h, List.tail_cons]

theorem step_of_input_nil {s : State} (h : s.input = []) : step s = exec .idle s := by
  have hs : s.takeInput = s := by
    rw [State.takeInput, h, List.tail_nil, ← h]
  rw [step_eq, nextInstr_nil h, hs]

theorem step_present (s : State) (e : HostEvent) : step (s.present e) = exec (decodeEvent e) s :=
  step_of_input_cons (s.present_input e)

/-- Settles O4: the two equations above. -/
theorem stepRunsDecodedInstruction : Obligations.StepRunsDecodedInstruction :=
  ⟨fun _ _ _ h => step_of_input_cons h, fun _ h => step_of_input_nil h⟩

/-- Settles O7: a step is an operation, and every operation has a next state. -/
theorem everyStepHasNextState : Obligations.EveryStepHasNextState :=
  fun s => exec_total s.nextInstr s.takeInput

/-! ### A word that is placed -/

theorem readTableWord_command {w : Nat} (h : w < 2048) : readTableWord 16 w = .ok (.cmd (BitVec.ofNat 11 w)) := by
  simp [readTableWord, cmdWordWellFormed, h]

theorem readTableWord_frame {w : Nat} (h : w < 2 ^ 32) : readTableWord 32 w = .ok (.frame (BitVec.ofNat 32 w)) := by
  rw [readTableWord, if_neg (by decide), if_neg (by decide), if_pos h]

theorem State.withFetchWord_command (s : State) {w : Nat} (h : w < 2048) :
    s.withFetchWord 16 w = s.present (.command (BitVec.ofNat 11 w)) := by
  rw [State.withFetchWord, State.placeTableWord, readTableWord_command h]

theorem State.withFetchWord_frame (s : State) {w : Nat} (h : w < 2 ^ 32) :
    s.withFetchWord 32 w = (s.holdFrame (BitVec.ofNat 32 w)).present (.observe .decode) := by
  rw [State.withFetchWord, State.placeTableWord, readTableWord_frame h]

/-- Settles O8: a placed word is the event presented first, of a command or of DECODE on the frame held. -/
theorem placedWordRunsNext : Obligations.PlacedWordRunsNext := by
  refine fun s w => ⟨fun h => ?_, fun h => ?_⟩
  · rw [s.withFetchWord_command h, step_present]
  · rw [s.withFetchWord_frame h, step_present]
    rfl

/-! ### The step function -/

theorem State.valid_eq_decide (s : State) : s.valid = decide (s.cnt = 4) := by
  rw [Bool.eq_iff_iff, State.valid_iff, decide_eq_true_iff]

/-- R23: the result in its two cases. -/
theorem State.result_eq_ite (s : State) : s.result = if s.cnt = 4 then some (decodeFrame s.buf) else none := by
  rw [State.result, s.valid_eq_decide]
  simp only [decide_eq_true_eq]

/-- R91: the registers after an accepted byte. -/
theorem State.acceptByte_get (s : State) (din : Byte) (h : s.cnt.val < 4) (i : Fin 4) :
    (s.acceptByte din h).buf.get i = if i.val = s.cnt.val then din else s.buf.get i := by
  rw [State.acceptByte_buf, FrameBuf.get_set]
  simp only [Fin.ext_iff]

/-- Settles O5: the three control bits select the command, and `exec` gives its next state. -/
theorem stepFollowsStepFunction : Obligations.StepFollowsStepFunction := by
  intro s c rest hinput
  have hstep : step s = exec (decodeCommand c) { s with input := rest } := step_of_input_cons hinput
  have outputs : ∀ t : State,
      (∀ outW : Nat, (t.pins outW).valid = decide (t.cnt = 4) ∧ (t.pins outW).ovr = t.ovr) ∧
        t.result = if t.cnt = 4 then some (decodeFrame t.buf) else none :=
    fun t => ⟨fun _ => ⟨t.valid_eq_decide, rfl⟩, t.result_eq_ite⟩
  cases hr : c.getLsbD 10
  case true =>
    rw [decodeCommand_of_rst hr, exec_reset] at hstep
    exact ⟨_, hstep, rfl, rfl, by simp, outputs _⟩
  case false =>
    cases hs : c.getLsbD 9
    case true =>
      rw [decodeCommand_of_start hr hs, exec_start] at hstep
      exact ⟨_, hstep, rfl, rfl, by simp, outputs _⟩
    case false =>
      cases hb : c.getLsbD 8
      case true =>
        rw [decodeCommand_of_bv hr hs hb] at hstep
        by_cases hlt : s.cnt.val < 4
        · rw [exec_byte_accepted (s := { s with input := rest }) _ hlt] at hstep
          exact ⟨_, hstep, rfl, rfl, by simp [hlt, State.acceptByte_get, -State.acceptByte_buf], outputs _⟩
        · rw [exec_byte_overrun (s := { s with input := rest }) _ hlt] at hstep
          exact ⟨_, hstep, rfl, rfl, by simp [hlt], outputs _⟩
      case false =>
        rw [decodeCommand_of_none hr hs hb, exec_idle] at hstep
        exact ⟨_, hstep, rfl, rfl, by simp, outputs _⟩

/-! ### RESET -/

/-- Settles O10: RESET draws the bytes and is a frame boundary, so no frame is held after it, and `rst` decides alone. -/
theorem resetCommandInitialises : Obligations.ResetCommandInitialises := by
  refine ⟨fun s => ⟨s.drawBytes.buf, exec_reset s⟩, fun s t h => ?_, fun c hr => decodeCommand_of_rst hr⟩
  obtain rfl : s.drawBytes.frameBoundary = t := next_inj h
  exact ⟨State.valid_of_cnt_eq_zero rfl, State.result_of_cnt_eq_zero rfl⟩

/-! ### A run of steps -/

/-- No operation reads the events still to come or changes them (R42). -/
theorem exec_set_input {i : Instr} {s t : State} (h : exec i s = .next t) (evs : List HostEvent) :
    exec i { s with input := evs } = .next { t with input := evs } := by
  obtain ⟨rfl, rfl⟩ | ⟨rfl, rfl⟩ | ⟨din, hc, rfl, rfl⟩ | ⟨din, hc, rfl, rfl⟩ | ⟨rfl, rfl⟩ | ⟨op, f, rfl, rfl⟩ :=
    exec_cases h
  · rfl
  · rfl
  · exact exec_byte_accepted din (s := { s with input := evs }) hc
  · exact exec_byte_overrun din (s := { s with input := evs }) hc
  · rfl
  · rw [exec_frameOp_eq] at h ⊢
    rw [← next_inj h]
    rfl

theorem input_of_exec {i : Instr} {s t : State} (h : exec i s = .next t) : t.input = s.input := by
  have hs : exec i s = .next { t with input := s.input } := exec_set_input h s.input
  rw [next_inj (h.symm.trans hs)]

theorem core_run_succ {s t : State} (h : step s = .next t) (k : Nat) :
    Host.Core.run core (k + 1) s = Host.Core.run core k t := by
  have hcore : core.step s = .next t := h
  simp only [Host.Core.run, hcore]

/-- Settles O6, by induction on the operations: a step takes off the first event, decodes it to the operation it encodes,
and leaves the other events as they are. -/
theorem stepsOnInputRunTheOperations : Obligations.StepsOnInputRunTheOperations := by
  intro is
  induction is with
  | nil =>
    intro s rest hinput
    obtain rfl : s.input = rest := hinput
    rfl
  | cons i is ih =>
    intro s rest hinput
    obtain ⟨t, ht⟩ := exec_total i { s with input := eventsOf is ++ rest }
    have hstep : step s = .next t := by
      rw [step_of_input_cons (rest := eventsOf is ++ rest) hinput, decodeEvent_encode, ht]
    have hrest : Host.Core.run core is.length t = runInstrs is { t with input := rest } :=
      ih t rest (input_of_exec ht)
    rw [List.length_cons, core_run_succ hstep, hrest, runInstrs_cons (exec_set_input ht rest)]

end Sys2Proof.Machine
end

section
/-!
PROOFS. The byte registers and the counter (spec/10_state.md sections 2 and 3, spec/20_memory.md section 4): what writes a
register, how a frame completes, and what the counter counts.
-/

namespace Sys2Proof.Machine

/-! ### What writes a register -/

/-- R16, R96: an operation other than RESET writes `din` at the old `cnt` if it is an accepted BYTE, and no register
otherwise. -/
theorem buf_of_exec {i : Instr} {s t : State} (h : exec i s = .next t) (hreset : i ≠ .reset) :
    (∃ din, ∃ hc : s.cnt.val < 4, i = .byte din ∧ t.buf = s.buf.set ⟨s.cnt.val, hc⟩ din) ∨
      (((∀ din, i ≠ .byte din) ∨ s.cnt = 4) ∧ t.buf = s.buf) := by
  obtain ⟨rfl, rfl⟩ | ⟨rfl, rfl⟩ | ⟨din, hc, rfl, rfl⟩ | ⟨din, hc, rfl, rfl⟩ | ⟨rfl, rfl⟩ | ⟨op, f, rfl, rfl⟩ :=
    exec_cases h
  · exact absurd rfl hreset
  · exact .inr ⟨.inl (by simp), rfl⟩
  · exact .inl ⟨din, hc, rfl, rfl⟩
  · exact .inr ⟨.inr (s.cnt_eq_four_iff_not_lt.mpr hc), rfl⟩
  · exact .inr ⟨.inl (by simp), rfl⟩
  · exact .inr ⟨.inl (decodeFrameOp_ne_byte op), rfl⟩

theorem buf_eq_of_exec {i : Instr} {s t : State} (h : exec i s = .next t) (hreset : i ≠ .reset)
    (hno : (∀ din, i ≠ .byte din) ∨ s.cnt = 4) : t.buf = s.buf := by
  obtain ⟨din, hc, hi, -⟩ | ⟨-, hbuf⟩ := buf_of_exec h hreset
  · obtain hno | hfour := hno
    · exact absurd hi (hno din)
    · exact absurd hc (s.cnt_eq_four_iff_not_lt.mp hfour)
  · exact hbuf

/-- R91, R92: the registers after a BYTE; at `cnt = 4` no index is the counter's. -/
theorem get_of_exec_byte {din : Byte} {s t : State} (h : exec (.byte din) s = .next t) (j : Fin 4) :
    t.buf.get j = if j.val = s.cnt.val then din else s.buf.get j := by
  obtain ⟨hc, rfl⟩ | ⟨hc, rfl⟩ := exec_byte_cases h
  · exact s.acceptByte_get din hc j
  · rw [State.raiseOverrun_buf, if_neg (by omega)]

/-- R16: no operation but RESET writes a register other than the one at the old `cnt`. -/
theorem get_eq_of_exec {i : Instr} {s t : State} (h : exec i s = .next t) (hreset : i ≠ .reset) {k : Fin 4}
    (hk : k.val ≠ s.cnt.val) : t.buf.get k = s.buf.get k := by
  obtain ⟨din, hc, -, hbuf⟩ | ⟨-, hbuf⟩ := buf_of_exec h hreset
  · rw [hbuf, FrameBuf.get_set_other _ _ (Fin.val_ne_iff.mp hk)]
  · rw [hbuf]

/-- Settles O16: the two lemmas on the registers after an operation that is a BYTE, and after one that is not. -/
theorem registersWrittenByAcceptedByteOnly : Obligations.RegistersWrittenByAcceptedByteOnly := by
  intro i s hreset
  obtain ⟨t, ht⟩ := exec_total i s
  refine ⟨t, ht, fun din hi j => ?_, buf_eq_of_exec ht hreset⟩
  subst hi
  exact get_of_exec_byte ht j

/-! ### A frame completes with its fourth byte -/

/-- R20, R91: only the BYTE that finds `cnt = 3` makes a frame complete. -/
theorem completes_only_by_fourth_byte {i : Instr} {s t : State} (h : exec i s = .next t) (hs : s.valid = false)
    (ht : t.valid = true) : ∃ din, i = .byte din ∧ s.cnt.val = 3 ∧ t.buf = { s.buf with b3 := din } := by
  have complete : t.valid ≠ false := by rw [ht]; decide
  obtain ⟨rfl, rfl⟩ | ⟨rfl, rfl⟩ | ⟨din, hc, rfl, rfl⟩ | ⟨din, hc, rfl, rfl⟩ | ⟨rfl, rfl⟩ | ⟨op, f, rfl, rfl⟩ :=
    exec_cases h
  · exact absurd (State.valid_of_cnt_eq_zero rfl) complete
  · exact absurd (State.valid_of_cnt_eq_zero rfl) complete
  · have hthree : s.cnt.val = 3 := (s.acceptByte_valid_iff din hc).mp ht
    refine ⟨din, rfl, hthree, ?_⟩
    simp only [State.acceptByte_buf, hthree]
    rfl
  · exact absurd hs complete
  · exact absurd hs complete
  · exact absurd hs complete

/-- R92: while a complete frame is held, nothing writes its registers. -/
theorem buf_eq_of_stays_valid {i : Instr} {s t : State} (h : exec i s = .next t) (hs : s.valid = true)
    (ht : t.valid = true) : t.buf = s.buf := by
  refine buf_eq_of_exec h (fun hi => ?_) (.inr (s.valid_iff.mp hs))
  rw [hi, exec_reset] at h
  rw [← next_inj h, State.valid_of_cnt_eq_zero (State.frameBoundary_cnt _)] at ht
  exact absurd ht (by decide)

/-- Settles O19: the two lemmas above, and `get_eq_of_exec` and `buf_eq_of_exec` for the single registers. -/
theorem frameCompletesAtomically : Obligations.FrameCompletesAtomically := by
  refine ⟨fun i s t h hs ht => completes_only_by_fourth_byte h hs ht, fun i s t h hs ht => ?_,
    fun i s t h hreset => ⟨fun k hk => get_eq_of_exec h hreset hk, buf_eq_of_exec h hreset⟩⟩
  have hbuf := buf_eq_of_stays_valid h hs ht
  exact ⟨hbuf, by rw [State.result_of_valid hs, State.result_of_valid ht, hbuf]⟩

/-! ### What the counter counts -/

theorem State.result_eq_none_iff (s : State) : s.result = none ↔ s.cnt.val < 4 := by
  by_cases h : s.cnt = 4
  · simp [State.result_of_valid (s.valid_iff.mpr h), h]
  · have hlt : s.cnt.val < 4 := not_not.mp (mt s.cnt_eq_four_iff_not_lt.mpr h)
    simp [State.result_of_not_valid (s.not_valid_iff.mpr hlt), hlt]

theorem noBoundary_cons (i : Instr) (is : List Instr) :
    noBoundary (i :: is) = true ↔ hostAction i ≠ .boundary ∧ noBoundary is = true := by
  simp [noBoundary]

/-- R18, R19: without a boundary an operation counts the byte it delivers, up to 4, and sets the flag for one more. -/
theorem cnt_ovr_of_exec {i : Instr} {s t : State} (h : exec i s = .next t) (hi : hostAction i ≠ .boundary) :
    t.cnt.val = min 4 (s.cnt.val + bytesIn [i]) ∧ t.ovr = (s.ovr || decide (4 < s.cnt.val + bytesIn [i])) := by
  have hle : s.cnt.val ≤ 4 := Nat.le_of_lt_succ s.cnt.isLt
  have unchanged : bytesIn [i] = 0 →
      s.cnt.val = min 4 (s.cnt.val + bytesIn [i]) ∧ s.ovr = (s.ovr || decide (4 < s.cnt.val + bytesIn [i])) := by
    intro hbytes
    simp [hbytes, hle]
  obtain ⟨rfl, rfl⟩ | ⟨rfl, rfl⟩ | ⟨din, hc, rfl, rfl⟩ | ⟨din, hc, rfl, rfl⟩ | ⟨rfl, rfl⟩ | ⟨op, f, rfl, rfl⟩ :=
    exec_cases h
  · exact absurd rfl hi
  · exact absurd rfl hi
  · have hfit : s.cnt.val + 1 ≤ 4 := hc
    simp [bytesIn, hostAction, hfit, Nat.not_le_of_lt hc]
  · have hfour : s.cnt.val = 4 := by omega
    simp [bytesIn, hostAction, hfour]
  · exact unchanged rfl
  · exact unchanged (by cases op <;> rfl)

/-- Settles O17, by induction on the operations, one `cnt_ovr_of_exec` each. -/
theorem counterCountsDeliveredBytes : Obligations.CounterCountsDeliveredBytes := by
  intro is
  induction is with
  | nil =>
    intro s _
    have hle : s.cnt.val ≤ 4 := Nat.le_of_lt_succ s.cnt.isLt
    refine ⟨s, rfl, ?_, ?_, s.result_eq_none_iff⟩ <;> simp [bytesIn, hle]
  | cons i is ih =>
    intro s hno
    obtain ⟨hi, his⟩ := (noBoundary_cons i is).mp hno
    obtain ⟨u, hu⟩ := exec_total i s
    obtain ⟨hcntU, hovrU⟩ := cnt_ovr_of_exec hu hi
    obtain ⟨t, ht, hcnt, hovr, -⟩ := ih u his
    have hbytes := bytesIn_cons i is
    refine ⟨t, (runInstrs_cons hu is).trans ht, by omega, ?_, ?_⟩
    · rw [hovr, hovrU, Bool.or_assoc, ← Bool.decide_or]
      congr 2
      rw [eq_iff_iff]
      omega
    · rw [t.result_eq_none_iff]
      omega

end Sys2Proof.Machine
end

section
/-!
PROOFS. The invariants of a run (spec/10_state.md section 7, R30): an overrun implies a complete frame, the machine refines
the list of accepted bytes, and with it the frame theorem (R94) and the commands of one read (R108).
-/

namespace Sys2Proof.Machine

/-! ### Runs -/

/-- Every sequence of operations ends in a next state (R124). -/
theorem runInstrs_total (is : List Instr) (s : State) : ∃ t : State, runInstrs is s = .next t := by
  obtain ⟨t, ht, -⟩ := exists_runInstrs_cnt_le is s
  exact ⟨t, ht⟩

/-- What every operation keeps, a run keeps. -/
theorem runInstrs_keeps {P : State → Prop} (hexec : ∀ {i s t}, exec i s = .next t → P s → P t) {is : List Instr}
    {s t : State} (h : runInstrs is s = .next t) (hs : P s) : P t := by
  induction is generalizing s with
  | nil =>
    obtain rfl : s = t := next_inj h
    exact hs
  | cons i is ih =>
    obtain ⟨u, hu⟩ := exec_total i s
    rw [runInstrs_cons hu] at h
    exact ih h (hexec hu hs)

/-! ### An overrun implies a complete frame -/

/-- R30 (d): a boundary clears the flag, only a BYTE that finds a complete frame sets it, and the counter leaves 4 only at
a boundary. -/
theorem inv_of_exec {i : Instr} {s t : State} (h : exec i s = .next t) (hs : s.Inv) : t.Inv := by
  intro hovr
  obtain ⟨rfl, rfl⟩ | ⟨rfl, rfl⟩ | ⟨din, hc, rfl, rfl⟩ | ⟨din, hc, rfl, rfl⟩ | ⟨rfl, rfl⟩ | ⟨op, f, rfl, rfl⟩ :=
    exec_cases h
  · exact absurd hovr (by simp)
  · exact absurd hovr (by simp)
  · exact absurd (hs hovr) (mt s.cnt_eq_four_iff_not_lt.mp (not_not.mpr hc))
  · exact s.cnt_eq_four_iff_not_lt.mpr hc
  · exact hs hovr
  · exact hs hovr

/-- Settles O41: a step is an operation from a state with the same counter and flag. -/
theorem overrunImpliesCompleteFrameKept : Obligations.OverrunImpliesCompleteFrameKept :=
  fun s hs _ h => inv_of_exec (s := s.takeInput) h hs

/-- Settles O42: no overrun is recorded at reset. -/
theorem overrunImpliesCompleteFrameAtReset : Obligations.OverrunImpliesCompleteFrameAtReset :=
  fun hovr => absurd hovr Bool.false_ne_true

/-! ### The accepted bytes and the registers -/

@[simp] theorem FrameBuf.length_toList (b : FrameBuf) : b.toList.length = 4 := rfl

theorem FrameBuf.toList_set (b : FrameBuf) (i : Fin 4) (v : Byte) : (b.set i v).toList = b.toList.set i.val v := by
  fin_cases i <;> rfl

theorem FrameBuf.getElem?_toList (b : FrameBuf) (i : Fin 4) : b.toList[i.val]? = some (b.get i) := by
  fin_cases i <;> rfl

/-- R30 (b): there are as many accepted bytes as the counter says. -/
@[simp] theorem State.length_accepted_bytes (s : State) : s.accepted.bytes.length = s.cnt.val := by
  rw [State.accepted, List.length_take, FrameBuf.length_toList]
  exact Nat.min_eq_left (Nat.le_of_lt_succ s.cnt.isLt)

/-- R30 (b): they are, in order, the first registers. -/
theorem State.getElem?_accepted_bytes (s : State) {j : Fin 4} (h : j.val < s.cnt.val) :
    s.accepted.bytes[j.val]? = some (s.buf.get j) := by
  rw [State.accepted, List.getElem?_take_of_lt h, FrameBuf.getElem?_toList]

theorem State.accepted_of_cnt_eq_zero {s : State} (h : s.cnt = 0) : s.accepted = ⟨[], s.ovr⟩ := by
  rw [State.accepted, h]
  rfl

theorem State.accepted_of_cnt_eq_four {s : State} (h : s.cnt = 4) : s.accepted = ⟨s.buf.toList, s.ovr⟩ := by
  rw [State.accepted, h]
  rfl

/-- R91: an accepted byte comes after the bytes already there. -/
theorem State.accepted_acceptByte (s : State) (din : Byte) (h : s.cnt.val < 4) :
    (s.acceptByte din h).accepted = ⟨s.accepted.bytes ++ [din], s.ovr⟩ := by
  simp only [State.accepted, State.acceptByte_buf, State.acceptByte_cnt, State.acceptByte_ovr, FrameBuf.toList_set]
  rw [List.take_add_one, List.take_set_of_le (Nat.le_refl _), List.getElem?_set_self h]
  rfl

/-! ### The abstract operations -/

theorem Accepted.after_byte_of_lt {a : Accepted} (din : Byte) (h : a.bytes.length < 4) :
    a.after (.byte din) = ⟨a.bytes ++ [din], a.ovr⟩ :=
  if_pos h

theorem Accepted.after_byte_of_not_lt {a : Accepted} (din : Byte) (h : ¬ a.bytes.length < 4) :
    a.after (.byte din) = ⟨a.bytes, true⟩ :=
  if_neg h

@[simp] theorem Accepted.after_decodeFrameOp (a : Accepted) (op : FrameOp) : a.after (decodeFrameOp op) = a := by
  cases op <;> rfl

/-- The abstract result reads four bytes, and no other number of them. -/
theorem Accepted.result_of_length_ne_four {a : Accepted} (h : a.bytes.length ≠ 4) : a.result = none := by
  unfold Accepted.result
  split
  next hbytes => exact absurd (congrArg List.length hbytes) h
  next => rfl

/-! ### The refinement -/

/-- R30 (e): the abstract state says what the result is. -/
theorem State.result_eq_accepted_result (s : State) : s.result = s.accepted.result := by
  by_cases h : s.cnt = 4
  · rw [State.result_of_valid (s.valid_iff.mpr h), State.accepted_of_cnt_eq_four h]
    rfl
  · have hlength : s.accepted.bytes.length ≠ 4 := by
      rw [s.length_accepted_bytes]
      exact fun hval => h (Fin.ext hval)
    rw [State.result_of_cnt_ne_four h, Accepted.result_of_length_ne_four hlength]

/-- R30 (e): an operation does to the abstract state what it does to the machine. -/
theorem accepted_of_exec {i : Instr} {s t : State} (h : exec i s = .next t) : t.accepted = s.accepted.after i := by
  obtain ⟨rfl, rfl⟩ | ⟨rfl, rfl⟩ | ⟨din, hc, rfl, rfl⟩ | ⟨din, hc, rfl, rfl⟩ | ⟨rfl, rfl⟩ | ⟨op, f, rfl, rfl⟩ :=
    exec_cases h
  · exact State.accepted_of_cnt_eq_zero (State.frameBoundary_cnt _)
  · exact State.accepted_of_cnt_eq_zero (State.frameBoundary_cnt _)
  · rw [State.accepted_acceptByte, Accepted.after_byte_of_lt din (by rwa [s.length_accepted_bytes])]
    rfl
  · rw [Accepted.after_byte_of_not_lt din (by rwa [s.length_accepted_bytes])]
    rfl
  · rfl
  · rw [Accepted.after_decodeFrameOp]
    rfl

theorem accepted_of_runInstrs {is : List Instr} {s t : State} (h : runInstrs is s = .next t) :
    t.accepted = is.foldl Accepted.after s.accepted := by
  induction is generalizing s with
  | nil =>
    obtain rfl : s = t := next_inj h
    rfl
  | cons i is ih =>
    obtain ⟨u, hu⟩ := exec_total i s
    rw [runInstrs_cons hu] at h
    rw [ih h, accepted_of_exec hu, List.foldl_cons]

/-- Settles O43: `accepted_of_exec`, and the result and the counter are those of the abstract state in every state. -/
theorem machineRefinesAcceptedBytes : Obligations.MachineRefinesAcceptedBytes := by
  intro i s
  obtain ⟨t, ht⟩ := exec_total i s
  exact ⟨t, ht, accepted_of_exec ht, t.result_eq_accepted_result, t.length_accepted_bytes⟩

/-! ### From a boundary on -/

/-- R30: after a boundary the abstract state is the one the operations compute from the empty one. -/
theorem accepted_of_runInstrs_boundary {boundary : Instr} (hb : boundary = .start ∨ boundary = .reset)
    {is : List Instr} {s t : State} (h : runInstrs (boundary :: is) s = .next t) :
    t.accepted = is.foldl Accepted.after ⟨[], false⟩ := by
  obtain ⟨u, hu, hcnt, hovr⟩ := exec_boundary hb s
  rw [runInstrs_cons hu] at h
  rw [accepted_of_runInstrs h, State.accepted_of_cnt_eq_zero hcnt, hovr]

theorem inv_of_runInstrs_boundary {boundary : Instr} (hb : boundary = .start ∨ boundary = .reset)
    {is : List Instr} {s t : State} (h : runInstrs (boundary :: is) s = .next t) : t.Inv := by
  obtain ⟨u, hu, -, hovr⟩ := exec_boundary hb s
  rw [runInstrs_cons hu] at h
  exact runInstrs_keeps inv_of_exec h fun htrue => absurd (hovr.symm.trans htrue) Bool.false_ne_true

/-- Settles O44: the abstract state after the run is the fold, and the registers, the counter and the result are read off
it. -/
theorem invariantsOfReachableStates : Obligations.InvariantsOfReachableStates := by
  intro s boundary is hb
  obtain ⟨t, ht⟩ := runInstrs_total (boundary :: is) s
  have haccepted := accepted_of_runInstrs_boundary hb ht
  refine ⟨t, ht, Nat.le_of_lt_succ t.cnt.isLt, haccepted, ?_, fun j hj => ?_, ?_, inv_of_runInstrs_boundary hb ht⟩
  · rw [← haccepted, t.length_accepted_bytes]
  · rw [← haccepted, t.getElem?_accepted_bytes hj]
  · rw [← haccepted, t.result_eq_accepted_result]

/-! ### The frame theorem -/

/-- Four accepted bytes and no overrun, read off the abstract state. -/
theorem State.of_accepted_four {t : State} {b0 b1 b2 b3 : Byte} (h : t.accepted = ⟨[b0, b1, b2, b3], false⟩) :
    t.cnt = 4 ∧ t.ovr = false ∧ t.result = some (decodeFrame ⟨b0, b1, b2, b3⟩) := by
  refine ⟨Fin.ext ?_, congrArg Accepted.ovr h, ?_⟩
  · rw [← t.length_accepted_bytes, h]
    rfl
  · rw [t.result_eq_accepted_result, h]
    rfl

/-- R94: a boundary and four bytes are a frame held without overrun, from every state. -/
theorem exists_runInstrs_boundary_frame {boundary : Instr} (hb : boundary = .start ∨ boundary = .reset) (s : State)
    (b0 b1 b2 b3 : Byte) :
    ∃ t : State, runInstrs [boundary, .byte b0, .byte b1, .byte b2, .byte b3] s = .next t ∧
      t.cnt = 4 ∧ t.ovr = false ∧ t.result = some (decodeFrame ⟨b0, b1, b2, b3⟩) := by
  obtain ⟨t, ht⟩ := runInstrs_total [boundary, .byte b0, .byte b1, .byte b2, .byte b3] s
  exact ⟨t, ht, State.of_accepted_four (accepted_of_runInstrs_boundary hb ht)⟩

/-- R92, R93: neither IDLE nor a further BYTE changes four accepted bytes. -/
theorem Accepted.foldl_after_bytes_of_length_eq_four {more : List Instr}
    (hmore : ∀ i ∈ more, i = .idle ∨ ∃ din, i = .byte din) {a : Accepted} (ha : a.bytes.length = 4) :
    (more.foldl Accepted.after a).bytes = a.bytes := by
  induction more generalizing a with
  | nil => rfl
  | cons i more ih =>
    obtain ⟨hi, hrest⟩ := List.forall_mem_cons.mp hmore
    obtain rfl | ⟨din, rfl⟩ := hi
    · exact ih hrest ha
    · rw [List.foldl_cons, Accepted.after_byte_of_not_lt din (by omega)]
      exact ih hrest ha

theorem Accepted.result_eq_of_bytes_eq {a a' : Accepted} (h : a.bytes = a'.bytes) : a.result = a'.result := by
  rw [Accepted.result, h, ← Accepted.result]

/-- Settles O40: without its IDLEs the sequence is a boundary and four bytes, and the accepted bytes stay. -/
theorem frameTheorem : Obligations.FrameTheorem := by
  intro s boundary b0 b1 b2 b3 is more hb his hmore
  obtain ⟨t, ht, hcnt, hovr, hresult⟩ := exists_runInstrs_boundary_frame hb s b0 b1 b2 b3
  rw [← his, runInstrs_filter_ne_idle] at ht
  obtain ⟨u, hu⟩ := runInstrs_total more t
  have hfour : t.accepted.bytes.length = 4 := by
    rw [t.length_accepted_bytes, hcnt]
    rfl
  have hkept : u.result = t.result := by
    rw [u.result_eq_accepted_result, t.result_eq_accepted_result, accepted_of_runInstrs hu]
    exact Accepted.result_eq_of_bytes_eq (Accepted.foldl_after_bytes_of_length_eq_four hmore hfour)
  exact ⟨t, u, ht, hcnt, t.valid_iff.mpr hcnt, hovr, hresult, hu, hkept⟩

/-! ### One read -/

/-- Settles O48: a read that gives a frame is START and four bytes; a read that fails is START alone, after which `cnt` is
0. -/
theorem readMapsOntoCommands : Obligations.ReadMapsOntoCommands := by
  refine ⟨fun s f => ?_, fun s e => ?_, fun r => ?_, fun f => rfl, fun e => ⟨rfl, rfl⟩⟩
  · obtain ⟨t, ht, hcnt, hovr, hresult⟩ := exists_runInstrs_boundary_frame (.inl rfl) s f.b0 f.b1 f.b2 f.b3
    exact ⟨t, ht, t.valid_iff.mpr hcnt, hovr, hresult⟩
  · exact ⟨s.frameBoundary, runInstrs_cons (exec_start s) [], State.valid_of_cnt_eq_zero s.frameBoundary_cnt,
      State.result_of_cnt_eq_zero s.frameBoundary_cnt, fun u => rfl⟩
  · cases r <;> rfl

end Sys2Proof.Machine
end

section
/-!
PROOFS. What no observer can tell apart (spec/10_state.md R29, spec/70_reset_and_hazards.md R117): bytes not delivered
since the last boundary, and a RESET from a START.
-/

namespace Sys2Proof.Machine

/-! ### States that are seen alike -/

section
variable {s t : State} (h : s.sameSeen t)
include h

theorem State.sameSeen.valid_eq : s.valid = t.valid := by
  obtain ⟨hcnt, -⟩ := h
  rw [State.valid, hcnt, ← State.valid]

/-- With a complete frame every register counts as seen. -/
theorem State.sameSeen.buf_eq (hv : s.valid = true) : s.buf = t.buf := by
  obtain ⟨-, -, -, -, hbuf⟩ := h
  refine FrameBuf.ext_get fun i => hbuf i ?_
  rw [s.valid_iff.mp hv]
  exact i.isLt

theorem State.sameSeen.result_eq : s.result = t.result := by
  cases hv : s.valid
  case false => rw [State.result_of_not_valid hv, State.result_of_not_valid (h.valid_eq ▸ hv)]
  case true => rw [State.result_of_valid hv, State.result_of_valid (h.valid_eq ▸ hv), h.buf_eq hv]

theorem State.sameSeen.observation_eq : s.observation = t.observation := by
  have hvalid := h.valid_eq
  have hresult := h.result_eq
  obtain ⟨-, hovr, -, hread, -⟩ := h
  rw [State.observation, hvalid, hovr, hresult, hread, ← State.observation]

/-! ### Each operation keeps them alike -/

/-- R91: the byte goes to the same index in both, and is the one register that becomes seen. -/
theorem State.sameSeen.acceptByte (din : Byte) (hs : s.cnt.val < 4) (ht : t.cnt.val < 4) :
    (s.acceptByte din hs).sameSeen (t.acceptByte din ht) := by
  obtain ⟨hcnt, hovr, hinput, hread, hbuf⟩ := h
  have hval : s.cnt.val = t.cnt.val := congrArg Fin.val hcnt
  refine ⟨Fin.ext (congrArg (· + 1) hval), hovr, hinput, hread, fun i hi => ?_⟩
  rw [s.acceptByte_get, t.acceptByte_get, ← hval]
  split_ifs with hnew
  · rfl
  · exact hbuf i (lt_of_le_of_ne (Nat.le_of_lt_succ hi) hnew)

theorem State.sameSeen.raiseOverrun : s.raiseOverrun.sameSeen t.raiseOverrun := by
  obtain ⟨hcnt, -, hinput, hread, hbuf⟩ := h
  exact ⟨hcnt, rfl, hinput, hread, hbuf⟩

/-- R23: the answer is a function of the frame where there is one, and `none` where there is not. -/
theorem State.sameSeen.observe (f : FrameBuf → Output) : (s.observe f).sameSeen (t.observe f) := by
  have hanswer : (s.observe f).lastRead = (t.observe f).lastRead := by
    rw [State.observe_lastRead, State.observe_lastRead, ← h.valid_eq]
    split_ifs with hv
    · rw [h.buf_eq hv]
    · rfl
  obtain ⟨hcnt, hovr, hinput, -, hbuf⟩ := h
  exact ⟨hcnt, hovr, hinput, hanswer, hbuf⟩

theorem State.sameSeen.takeInput : s.takeInput.sameSeen t.takeInput := by
  obtain ⟨hcnt, hovr, hinput, hread, hbuf⟩ := h
  exact ⟨hcnt, hovr, congrArg List.tail hinput, hread, hbuf⟩

theorem State.sameSeen.nextInstr_eq : s.nextInstr = t.nextInstr := by
  obtain ⟨-, -, hinput, -⟩ := h
  rw [State.nextInstr, State.nextEvent, hinput, ← State.nextEvent, ← State.nextInstr]

end

/-- R29: with no byte delivered since the boundary nothing of the registers is seen. -/
theorem State.sameSeen_of_cnt_eq_zero {s t : State} (hs : s.cnt = 0) (ht : t.cnt = 0) (hovr : s.ovr = t.ovr)
    (hinput : s.input = t.input) (hread : s.lastRead = t.lastRead) : s.sameSeen t := by
  refine ⟨hs.trans ht.symm, hovr, hinput, hread, fun i hi => ?_⟩
  rw [hs] at hi
  exact absurd hi (Nat.not_lt_zero _)

theorem exec_sameSeen (i : Instr) {s t : State} (h : s.sameSeen t) :
    ∃ s' t' : State, exec i s = .next s' ∧ exec i t = .next t' ∧ s'.sameSeen t' := by
  obtain ⟨s', hs'⟩ := exec_total i s
  have ⟨hcnt, _, hinput, hread, _⟩ := h
  obtain ⟨rfl, rfl⟩ | ⟨rfl, rfl⟩ | ⟨din, hc, rfl, rfl⟩ | ⟨din, hc, rfl, rfl⟩ | ⟨rfl, rfl⟩ | ⟨op, -, rfl, -⟩ :=
    exec_cases hs'
  · exact ⟨_, _, hs', exec_reset t, State.sameSeen_of_cnt_eq_zero rfl rfl rfl hinput hread⟩
  · exact ⟨_, _, hs', exec_start t, State.sameSeen_of_cnt_eq_zero rfl rfl rfl hinput hread⟩
  · have hc' : t.cnt.val < 4 := hcnt ▸ hc
    exact ⟨_, _, hs', exec_byte_accepted din hc', h.acceptByte din hc hc'⟩
  · exact ⟨_, _, hs', exec_byte_overrun din (hcnt ▸ hc), h.raiseOverrun⟩
  · exact ⟨_, _, hs', exec_idle t, h⟩
  · exact ⟨_, _, exec_frameOp_eq op s, exec_frameOp_eq op t, h.observe (frameOutput op)⟩

theorem runInstrs_sameSeen (is : List Instr) {s t : State} (h : s.sameSeen t) :
    ∃ s' t' : State, runInstrs is s = .next s' ∧ runInstrs is t = .next t' ∧ s'.sameSeen t' := by
  induction is generalizing s t with
  | nil => exact ⟨s, t, rfl, rfl, h⟩
  | cons i is ih =>
    obtain ⟨u, v, hu, hv, huv⟩ := exec_sameSeen i h
    obtain ⟨s', t', hs', ht', hst⟩ := ih huv
    exact ⟨s', t', (runInstrs_cons hu is).trans hs', (runInstrs_cons hv is).trans ht', hst⟩

theorem step_sameSeen {s t : State} (h : s.sameSeen t) :
    ∃ s' t' : State, step s = .next s' ∧ step t = .next t' ∧ s'.sameSeen t' := by
  rw [step_eq, step_eq, ← h.nextInstr_eq]
  exact exec_sameSeen s.nextInstr h.takeInput

/-! ### Observing after a run -/

theorem observationAfter_of_runInstrs {is : List Instr} {s t : State} (h : runInstrs is s = .next t) :
    observationAfter is s = some t.observation := by
  rw [observationAfter, h]

theorem observationAfter_eq_of_sameSeen (is : List Instr) {s t : State} (h : s.sameSeen t) :
    observationAfter is s = observationAfter is t := by
  obtain ⟨s', t', hs', ht', hst⟩ := runInstrs_sameSeen is h
  rw [observationAfter_of_runInstrs hs', observationAfter_of_runInstrs ht', hst.observation_eq]

theorem observationAfter_isSome (is : List Instr) (s : State) : (observationAfter is s).isSome = true := by
  obtain ⟨t, ht⟩ := runInstrs_total is s
  rw [observationAfter_of_runInstrs ht, Option.isSome_some]

/-- Settles O45: states seen alike stay alike under every operation and are observed alike, and at `cnt = 0` no register
is seen. -/
theorem unseenBytesAreNeverObserved : Obligations.UnseenBytesAreNeverObserved := by
  refine ⟨fun s t is h => ?_, fun s t h => ?_, fun s bytes bytes' free free' is => ?_⟩
  · obtain ⟨s', t', hs', ht', hst⟩ := runInstrs_sameSeen is h
    exact ⟨s', t', hs', ht', hst, hst.observation_eq⟩
  · obtain ⟨s', t', hs', ht', hst⟩ := step_sameSeen h
    exact ⟨s', t', hs', ht', hst, hst.observation_eq⟩
  · exact observationAfter_eq_of_sameSeen is (State.sameSeen_of_cnt_eq_zero rfl rfl rfl rfl rfl)

/-! ### RESET and START -/

theorem runInstrs_append {before : List Instr} {s u : State} (h : runInstrs before s = .next u) (after : List Instr) :
    runInstrs (before ++ after) s = runInstrs after u := by
  induction before generalizing s with
  | nil =>
    obtain rfl : s = u := next_inj h
    rfl
  | cons i before ih =>
    obtain ⟨v, hv⟩ := exec_total i s
    rw [runInstrs_cons hv] at h
    rw [List.cons_append, runInstrs_cons hv, ih h]

theorem observationAfter_append_cons {before : List Instr} {i : Instr} {s u v : State}
    (hu : runInstrs before s = .next u) (hv : exec i u = .next v) (after : List Instr) :
    observationAfter (before ++ i :: after) s = observationAfter after v := by
  rw [observationAfter, runInstrs_append hu, runInstrs_cons hv, ← observationAfter]

/-- Settles O46: RESET differs from START in the bytes it draws, and at `cnt = 0` these are not seen. -/
theorem resetAndStartObservedAlike : Obligations.ResetAndStartObservedAlike := by
  refine ⟨fun s before after => ⟨?_, observationAfter_isSome _ s⟩, fun s =>
    ⟨_, _, exec_reset s, exec_start s, rfl, rfl, rfl, rfl, rfl⟩⟩
  obtain ⟨u, hu⟩ := runInstrs_total before s
  rw [observationAfter_append_cons hu (exec_reset u), observationAfter_append_cons hu (exec_start u)]
  exact observationAfter_eq_of_sameSeen after (State.sameSeen_of_cnt_eq_zero rfl rfl rfl rfl rfl)

end Sys2Proof.Machine
end

section
/-!
PROOFS. The duties of the host (spec/60_exceptions.md section 6, spec/70_reset_and_hazards.md section 2) and what they
bring: no overrun, and a value from every observation.
-/

namespace Sys2Proof.Machine

@[simp] theorem hostAction_decodeFrameOp (op : FrameOp) : hostAction (decodeFrameOp op) = .look := by
  cases op <;> rfl

/-! ### The duties, operation by operation -/

theorem hostObeys_byte_cons (k : Nat) (din : Byte) (is : List Instr) :
    hostObeys k (.byte din :: is) = true ↔ k < 4 ∧ hostObeys (k + 1) is = true := by
  simp [hostObeys, hostAction]

theorem hostObeys_frameOp_cons (k : Nat) (op : FrameOp) (is : List Instr) :
    hostObeys k (decodeFrameOp op :: is) = true ↔ k = 4 ∧ hostObeys k is = true := by
  simp [hostObeys]

/-- A dutiful operation leaves the flag 0, and what follows is dutiful from the new counter on. -/
theorem exec_of_hostObeys {i : Instr} {is : List Instr} {s t : State} (h : exec i s = .next t) (hovr : s.ovr = false)
    (hobeys : hostObeys s.cnt.val (i :: is) = true) : t.ovr = false ∧ hostObeys t.cnt.val is = true := by
  obtain ⟨rfl, rfl⟩ | ⟨rfl, rfl⟩ | ⟨din, hc, rfl, rfl⟩ | ⟨din, hc, rfl, rfl⟩ | ⟨rfl, rfl⟩ | ⟨op, f, rfl, rfl⟩ :=
    exec_cases h
  · exact ⟨rfl, hobeys⟩
  · exact ⟨rfl, hobeys⟩
  · exact ⟨hovr, ((hostObeys_byte_cons _ din is).mp hobeys).2⟩
  · exact absurd ((hostObeys_byte_cons _ din is).mp hobeys).1 hc
  · exact ⟨hovr, hobeys⟩
  · exact ⟨hovr, ((hostObeys_frameOp_cons _ op is).mp hobeys).2⟩

/-- A dutiful beginning of a sequence ends without overrun, and the rest of the sequence is dutiful from there on. -/
theorem runInstrs_of_hostObeys {before after : List Instr} {s : State} (hovr : s.ovr = false)
    (hobeys : hostObeys s.cnt.val (before ++ after) = true) :
    ∃ u : State, runInstrs before s = .next u ∧ u.ovr = false ∧ hostObeys u.cnt.val after = true := by
  induction before generalizing s with
  | nil => exact ⟨s, rfl, hovr, hobeys⟩
  | cons i before ih =>
    obtain ⟨v, hv⟩ := exec_total i s
    obtain ⟨hovrV, hobeysV⟩ := exec_of_hostObeys hv hovr hobeys
    obtain ⟨u, hu, hrest⟩ := ih hovrV hobeysV
    exact ⟨u, (runInstrs_cons hv before).trans hu, hrest⟩

theorem answer_frameOp_of_complete (op : FrameOp) {s : State} (h : s.cnt = 4) :
    answer (decodeFrameOp op) s = some (frameOutput op s.buf) := by
  rw [answer, exec_frameOp_of_complete op h]

/-- Settles O47: by `runInstrs_of_hostObeys` the operations before an observation end without overrun, and the duty of
that observation is that a complete frame is held. -/
theorem dutifulHostIsAlwaysAnswered : Obligations.DutifulHostIsAlwaysAnswered := by
  refine fun s is hovr hobeys => ⟨?_, fun before after op his => ?_⟩
  · rw [← is.append_nil] at hobeys
    obtain ⟨t, ht, hovrT, -⟩ := runInstrs_of_hostObeys hovr hobeys
    exact ⟨t, ht, hovrT⟩
  · rw [his] at hobeys
    obtain ⟨u, hu, hovrU, hobeysU⟩ := runInstrs_of_hostObeys hovr hobeys
    have hcnt : u.cnt = 4 := Fin.ext ((hostObeys_frameOp_cons _ op after).mp hobeysU).1
    refine ⟨u, hu, u.valid_iff.mpr hcnt, hovrU, ?_⟩
    rw [answer_frameOp_of_complete op hcnt, Option.isSome_some]

end Sys2Proof.Machine
end

section
/-!
PROOFS. The bytes of a frame (spec/20_memory.md sections 2 and 5) and the reads of the frame buffer (spec/00_scope.md
R10).
-/

namespace Sys2Proof.Machine

/-! ### A byte is a slice of the frame word -/

/-- Settles O38: word and bytes are inverse to each other, and `FrameBuf.ofWord` cuts the slices out. -/
theorem bytesAreSlicesOfTheFrame : Obligations.BytesAreSlicesOfTheFrame := by
  refine ⟨fun b i => ?_, word_ofWord, ofWord_word⟩
  calc b.get i = (FrameBuf.ofWord b.word).get i := by rw [ofWord_word]
    _ = b.word.extractLsb' (24 - 8 * i.val) 8 := by fin_cases i <;> rfl

/-! ### Big-endian numbers -/

theorem bigEndian_append_singleton (l : List Byte) (x : Byte) :
    bigEndian (l ++ [x]) = 256 * bigEndian l + x.toNat := by
  simp [bigEndian]

theorem bigEndian_lt (l : List Byte) : bigEndian l < 256 ^ l.length := by
  induction l using List.reverseRecOn with
  | nil => decide
  | append_singleton l x ih =>
    have hx := x.isLt
    rw [bigEndian_append_singleton, List.length_append, List.length_singleton, Nat.pow_succ]
    omega

/-- Digit `k` from the top, in base 256, is byte `k` of the list. -/
theorem bigEndian_digit {l : List Byte} {k : Nat} {x : Byte} (h : l[k]? = some x) :
    bigEndian l / 256 ^ (l.length - 1 - k) % 256 = x.toNat := by
  induction l using List.reverseRecOn with
  | nil => simp at h
  | append_singleton l y ih =>
    have hy := y.isLt
    rw [bigEndian_append_singleton, List.length_append, List.length_singleton, Nat.add_sub_cancel]
    obtain ⟨hk, -⟩ := List.getElem?_eq_some_iff.mp h
    rw [List.length_append, List.length_singleton] at hk
    by_cases hlast : k = l.length
    · obtain rfl : y = x := by simpa [hlast] using h
      rw [hlast, Nat.sub_self, Nat.pow_zero, Nat.div_one]
      omega
    · have hlt : k < l.length := by omega
      have hexp : l.length - k = l.length - 1 - k + 1 := by omega
      have htop : (256 * bigEndian l + y.toNat) / 256 = bigEndian l := by omega
      rw [List.getElem?_append_left hlt] at h
      rw [hexp, Nat.pow_succ', ← Nat.div_div_eq_div_mul, htop, ih h]

/-! ### Reads of the frame buffer -/

theorem FrameBuf.memRead_of_le (b : FrameBuf) {a n : Nat} (h : a + n ≤ 4) :
    b.memRead a n = some (BitVec.ofNat (8 * n) (bigEndian ((b.toList.drop a).take n))) :=
  if_pos (decide_eq_true h)

theorem FrameBuf.memRead_of_not_le (b : FrameBuf) {a n : Nat} (h : ¬ a + n ≤ 4) : b.memRead a n = none :=
  if_neg (by simpa [memReadWellFormed] using h)

theorem FrameBuf.memRead_isSome_iff (b : FrameBuf) (a n : Nat) : (b.memRead a n).isSome = true ↔ a + n ≤ 4 := by
  by_cases h : a + n ≤ 4
  · simp [b.memRead_of_le h, h]
  · simp [b.memRead_of_not_le h, h]

/-- R10: a read that is defined is the big-endian number of the registers it covers. -/
theorem FrameBuf.memRead_eq_some (b : FrameBuf) {a n : Nat} (h : a + n ≤ 4) {v : BitVec (8 * n)}
    (hv : bigEndian ((b.toList.drop a).take n) = v.toNat) : b.memRead a n = some v := by
  rw [b.memRead_of_le h, hv, BitVec.ofNat_toNat, BitVec.setWidth_eq]

theorem FrameBuf.length_window (b : FrameBuf) {a n : Nat} (h : a + n ≤ 4) : ((b.toList.drop a).take n).length = n := by
  rw [List.length_take, List.length_drop, b.length_toList]
  omega

theorem FrameBuf.getElem?_window (b : FrameBuf) {a n k : Nat} (hk : k < n) (h : a + k < 4) :
    ((b.toList.drop a).take n)[k]? = some (b.get ⟨a + k, h⟩) := by
  rw [List.getElem?_take_of_lt hk, List.getElem?_drop]
  exact b.getElem?_toList ⟨a + k, h⟩

/-- R10: byte `k` of a read, from the top, is the register at `a + k`. -/
theorem FrameBuf.extractLsb'_memRead (b : FrameBuf) {a n k : Nat} {v : BitVec (8 * n)} (hv : b.memRead a n = some v)
    (hk : k < n) (h : a + k < 4) : v.extractLsb' (8 * (n - 1 - k)) 8 = b.get ⟨a + k, h⟩ := by
  have hle : a + n ≤ 4 := (b.memRead_isSome_iff a n).mp (by rw [hv, Option.isSome_some])
  have hpow : ∀ m : Nat, 2 ^ (8 * m) = 256 ^ m := fun m => Nat.pow_mul 2 8 m
  have hlength := b.length_window hle
  have hbound := bigEndian_lt ((b.toList.drop a).take n)
  have hdigit := bigEndian_digit (b.getElem?_window hk h)
  rw [hlength] at hbound hdigit
  rw [b.memRead_of_le hle, Option.some.injEq] at hv
  apply BitVec.eq_of_toNat_eq
  rw [← hv, BitVec.extractLsb'_toNat, BitVec.toNat_ofNat, Nat.shiftRight_eq_div_pow, hpow, hpow,
    Nat.mod_eq_of_lt hbound]
  exact hdigit

/-- Settles O39: a defined read is `bigEndian` of its registers, which has them as its digits and is the word, a half or a
byte. -/
theorem memReadIsBigEndian : Obligations.MemReadIsBigEndian := by
  intro b
  refine ⟨b.memRead_isSome_iff, fun a n v hv k hk h => b.extractLsb'_memRead hv hk h,
    b.memRead_eq_some (by decide) ?_, b.memRead_eq_some (by decide) ?_, b.memRead_eq_some (by decide) ?_,
    fun i => b.memRead_eq_some i.isLt ?_⟩
  · rw [toNat_word]
    simp only [bigEndian, FrameBuf.toList, List.drop, List.take, List.foldl]
    omega
  · rw [FrameBuf.upper, toNat_half]
    simp [bigEndian, FrameBuf.toList]
  · rw [FrameBuf.lower, toNat_half]
    simp [bigEndian, FrameBuf.toList]
  · have hwindow : (b.toList.drop i.val).take 1 = [b.get i] := by fin_cases i <;> rfl
    rw [hwindow]
    simp [bigEndian]

end Sys2Proof.Machine
end

section
/-!
PROOFS. The two temperature fields (spec/41_temperature.md): the extraction in three forms (R64 to R66), the ranges (R67),
the signs (R68), the round trip (R69) and the wrong readings (R70).
-/

namespace Sys2Proof.Machine

/-! ### The sign bit -/

/-- R7: the signed value is the unsigned one less `2^w` where the sign bit is 1. -/
theorem toInt_eq_toNat_sub {w : Nat} (x : BitVec w) :
    x.toInt = x.toNat - 2 ^ w * (if x.msb then 1 else 0) := by
  rw [BitVec.toInt_eq_msb_cond]
  split_ifs <;> simp

theorem toInt_neg_iff_msb {w : Nat} (x : BitVec w) : x.toInt < 0 ↔ x.msb = true := by
  rw [BitVec.msb_eq_toInt, decide_eq_true_iff]

theorem msb_frameBits (w : FrameWord) (lo m : Nat) : (frameBits w lo (m + 1)).msb = w.getLsbD (lo + m) := by
  simp [BitVec.msb_eq_getLsbD_last, frameBits]

theorem msb_half (hi lo : Byte) : (half hi lo).msb = hi.getLsbD 7 := by
  rw [BitVec.msb_eq_getLsbD_last]
  exact getLsbD_half hi lo 15

/-! ### The extraction: shift, subtraction, floor -/

/-- R8: the arithmetic shift is division rounded toward minus infinity. -/
theorem toInt_asr {w : Nat} (x : BitVec w) (k : Nat) : (asr x k).toInt = x.toInt / 2 ^ k := by
  rw [asr, BitVec.toInt_sshiftRight, Int.shiftRight_eq_div_pow]
  norm_cast

theorem tcRawOf_eq_toInt_half_div (hi lo : Byte) : tcRawOf hi lo = (half hi lo).toInt / 4 :=
  toInt_asr (half hi lo) 2

theorem intRawOf_eq_toInt_half_div (hi lo : Byte) : intRawOf hi lo = (half hi lo).toInt / 16 :=
  toInt_asr (half hi lo) 4

section
variable (b : FrameBuf)

theorem tcRawOf_eq_toNat_sub :
    tcRawOf b.b0 b.b1 =
      (b.word.extractLsb' 18 14).toNat - 16384 * (if b.word.getLsbD 31 then 1 else 0) := by
  rw [tcRawOf_eq_toInt_tcField, toInt_eq_toNat_sub, tcField, msb_frameBits b.word 18 13]
  rfl

theorem intRawOf_eq_toNat_sub :
    intRawOf b.b2 b.b3 =
      (b.word.extractLsb' 4 12).toNat - 4096 * (if b.word.getLsbD 15 then 1 else 0) := by
  rw [intRawOf_eq_toInt_intField, toInt_eq_toNat_sub, intField, msb_frameBits b.word 4 11]
  rfl

theorem tcRawOf_eq_toInt_div : tcRawOf b.b0 b.b1 = (b.word.extractLsb' 16 16).toInt / 4 := by
  rw [tcRawOf_eq_toInt_half_div, ← upper_eq_extractLsb', FrameBuf.upper]

theorem intRawOf_eq_toInt_div : intRawOf b.b2 b.b3 = (b.word.extractLsb' 0 16).toInt / 16 := by
  rw [intRawOf_eq_toInt_half_div, ← lower_eq_extractLsb', FrameBuf.lower]

end

/-- Settles O21: the answer is the raw field, which has the three forms above. -/
theorem temperatureExtraction : Obligations.TemperatureExtraction :=
  ⟨fun s hcnt => ⟨tcRawOf s.buf.b0 s.buf.b1, exec_frameOp_of_complete .tcraw hcnt, tcRawOf_eq_toInt_sshiftRight s.buf,
      tcRawOf_eq_toNat_sub s.buf, tcRawOf_eq_toInt_div s.buf⟩,
    fun s hcnt => ⟨intRawOf s.buf.b2 s.buf.b3, exec_frameOp_of_complete .intraw hcnt,
      intRawOf_eq_toInt_sshiftRight s.buf, intRawOf_eq_toNat_sub s.buf, intRawOf_eq_toInt_div s.buf⟩⟩

/-! ### The signs -/

theorem tcRawOf_neg_iff (b : FrameBuf) : tcRawOf b.b0 b.b1 < 0 ↔ b.word.getLsbD 31 = true := by
  rw [tcRawOf_eq_toInt_tcField, toInt_neg_iff_msb, tcField, msb_frameBits b.word 18 13]

theorem intRawOf_neg_iff (b : FrameBuf) : intRawOf b.b2 b.b3 < 0 ↔ b.word.getLsbD 15 = true := by
  rw [intRawOf_eq_toInt_intField, toInt_neg_iff_msb, intField, msb_frameBits b.word 4 11]

/-- Settles O30: the sign bit of each field is D31 or D15, the top bit of byte 0 or of byte 2. -/
theorem signBitsDecideSigns : Obligations.SignBitsDecideSigns := fun b =>
  ⟨tcRawOf_neg_iff b, getLsbD_word b 31, tcRawOf_eq_toNat_sub b, intRawOf_neg_iff b, getLsbD_word b 15,
    intRawOf_eq_toNat_sub b⟩

/-! ### The round trip and the ranges -/

theorem tcRawWellFormed_iff (v : Int) : tcRawWellFormed v = true ↔ -8192 ≤ v ∧ v ≤ 8191 := by
  simp [tcRawWellFormed]

theorem intRawWellFormed_iff (v : Int) : intRawWellFormed v = true ↔ -2048 ≤ v ∧ v ≤ 2047 := by
  simp [intRawWellFormed]

/-- R69: the two bytes hold `4 * e + x`, and the shift by 2 drops `x`. -/
theorem tcRawOf_encoded {v : Int} (hv : tcRawWellFormed v = true) {x : Nat} (hx : x < 4) :
    tcRawOf (BitVec.ofInt 8 (v % 16384 / 64)) (BitVec.ofInt 8 (v % 16384 % 64 * 4 + x)) = v := by
  obtain ⟨hlo, hhi⟩ := (tcRawWellFormed_iff v).mp hv
  rw [tcRawOf_eq_toInt_half_div, BitVec.toInt_eq_toNat_cond, toNat_half, BitVec.toNat_ofInt, BitVec.toNat_ofInt]
  split_ifs <;> omega

/-- R69: the two bytes hold `16 * e + y`, and the shift by 4 drops `y`. -/
theorem intRawOf_encoded {v : Int} (hv : intRawWellFormed v = true) {y : Nat} (hy : y < 16) :
    intRawOf (BitVec.ofInt 8 (v % 4096 / 16)) (BitVec.ofInt 8 (v % 4096 % 16 * 16 + y)) = v := by
  obtain ⟨hlo, hhi⟩ := (intRawWellFormed_iff v).mp hv
  rw [intRawOf_eq_toInt_half_div, BitVec.toInt_eq_toNat_cond, toNat_half, BitVec.toNat_ofInt, BitVec.toNat_ofInt]
  split_ifs <;> omega

/-- Settles O31: each field reads its own two bytes alone. -/
theorem fieldRoundTrip : Obligations.FieldRoundTrip :=
  ⟨fun _ _ _ _ hv hx => tcRawOf_encoded hv hx, fun _ _ _ _ hv hy => intRawOf_encoded hv hy⟩

/-- Settles O29: the widths of the fields bound them, and the encodings of the round trip reach every value. -/
theorem temperatureRangesAreFull : Obligations.TemperatureRangesAreFull := by
  refine ⟨fun b => ?_, fun v u hv hu => ⟨⟨_, _, _, _⟩, tcRawOf_encoded hv (x := 0) (by decide),
    intRawOf_encoded hu (y := 0) (by decide)⟩⟩
  obtain ⟨htcLo, htcHi⟩ := decodeFrame_tcRaw_bounds b
  exact ⟨htcLo, htcHi, decodeFrame_intRaw_bounds b⟩

/-! ### The wrong readings -/

/-- R70: the logical shift is the arithmetic one exactly where the sign bit is 0. -/
theorem toNat_lsr_eq_toInt_asr_iff {w : Nat} (x : BitVec w) (k : Nat) :
    ((lsr x k).toNat : Int) = (asr x k).toInt ↔ x.msb = false := by
  rw [toInt_asr, lsr, BitVec.toNat_ushiftRight, Nat.shiftRight_eq_div_pow]
  cases hmsb : x.msb
  case false => simp [BitVec.toInt_eq_toNat_of_msb hmsb]
  case true =>
    have hneg : x.toInt / 2 ^ k < 0 :=
      Int.ediv_neg_of_neg_of_pos ((toInt_neg_iff_msb x).mpr hmsb) (by positivity)
    have hnonneg : (0 : Int) ≤ (x.toNat / 2 ^ k : Nat) := Int.natCast_nonneg _
    simp only [Bool.true_eq_false, iff_false]
    omega

/-- R70: the field without its sign is the logical shift. -/
theorem toNat_extractLsb'_eq_lsr {w k n : Nat} (h : w ≤ k + n) (x : BitVec w) :
    (x.extractLsb' k n).toNat = (lsr x k).toNat := by
  rw [BitVec.extractLsb'_toNat, lsr, BitVec.toNat_ushiftRight, Nat.shiftRight_eq_div_pow]
  apply Nat.mod_eq_of_lt
  apply Nat.div_lt_of_lt_mul
  rw [← Nat.pow_add]
  exact Nat.lt_of_lt_of_le x.isLt (Nat.pow_le_pow_right (by decide) h)

/-- R70: division rounded toward zero is the arithmetic shift where nothing is rounded or the number is not negative. -/
theorem tdiv_eq_toInt_asr_iff {w : Nat} (x : BitVec w) (k : Nat) :
    x.toInt.tdiv (2 ^ k) = (asr x k).toInt ↔ x.msb = false ∨ (2 ^ k : Int) ∣ x.toInt := by
  have hsign : (2 ^ k : Int).sign = 1 := Int.sign_eq_one_of_pos (by positivity)
  have hmsb : x.msb = false ↔ 0 ≤ x.toInt := by
    rw [← Int.not_lt, toInt_neg_iff_msb, Bool.not_eq_true]
  rw [toInt_asr, Int.tdiv_eq_ediv, hsign, hmsb]
  split_ifs with h <;> simp [h]

theorem extractLsb'_zero_eq_zero_iff {w : Nat} (x : BitVec w) (k : Nat) :
    x.extractLsb' 0 k = 0#k ↔ x.toNat % 2 ^ k = 0 := by
  rw [← BitVec.toNat_inj, BitVec.extractLsb'_toNat, Nat.shiftRight_zero, BitVec.toNat_ofNat, Nat.zero_mod]

/-- The bits a shift by `k` drops from a half are the low bits of its second byte. -/
theorem two_pow_dvd_toInt_half_iff (hi lo : Byte) {k : Nat} (hk : k ≤ 8) :
    (2 ^ k : Int) ∣ (half hi lo).toInt ↔ lo.extractLsb' 0 k = 0#k := by
  have hpow : (2 ^ k : Int) ∣ 256 := pow_dvd_pow 2 hk
  have hsplit : (half hi lo).toInt = 256 * (hi.toNat - 256 * (if (half hi lo).msb then 1 else 0)) + lo.toNat := by
    rw [toInt_eq_toNat_sub, toNat_half]
    push_cast
    ring
  rw [hsplit, Int.dvd_add_right (hpow.mul_right _), extractLsb'_zero_eq_zero_iff, ← Nat.dvd_iff_mod_eq_zero]
  norm_cast

/-- R70 for a half, at any shift that drops bits of its second byte alone. -/
theorem wrong_shifts_of_half (hi lo : Byte) {k n : Nat} (hk : k ≤ 8) (hn : 16 ≤ k + n) :
    (((lsr (half hi lo) k).toNat : Int) = (asr (half hi lo) k).toInt ↔ hi.getLsbD 7 = false) ∧
      ((half hi lo).extractLsb' k n).toNat = (lsr (half hi lo) k).toNat ∧
      ((half hi lo).toInt.tdiv (2 ^ k) = (asr (half hi lo) k).toInt ↔
        (hi.getLsbD 7 = false ∨ lo.extractLsb' 0 k = 0#k)) := by
  rw [← msb_half hi lo, ← two_pow_dvd_toInt_half_iff hi lo hk]
  exact ⟨toNat_lsr_eq_toInt_asr_iff _ k, toNat_extractLsb'_eq_lsr hn _, tdiv_eq_toInt_asr_iff _ k⟩

/-- Settles O32: the upper half is shifted by 2 and the lower by 4. -/
theorem wrongShiftsAreTold : Obligations.WrongShiftsAreTold :=
  ⟨fun hi lo => wrong_shifts_of_half hi lo (k := 2) (n := 14) (by decide) (by decide),
    fun hi lo => wrong_shifts_of_half hi lo (k := 4) (n := 12) (by decide) (by decide)⟩

end Sys2Proof.Machine
end

section
/-!
PROOFS. The fault flags (spec/42_faults.md) as masks of bytes 1 and 3 and on consistent and inconsistent frames, and what a
consumer observes with and without a complete frame (spec/10_state.md section 4, R23).
-/

namespace Sys2Proof.Machine

/-! ### Masks -/

/-- A bit is 1 exactly when the vector is not 0 under the mask of that bit. -/
theorem getLsbD_eq_decide_and_twoPow {w k : Nat} (hk : k < w) (x : BitVec w) :
    x.getLsbD k = decide (x &&& BitVec.twoPow w k ≠ 0#w) := by
  have hzero : x.getLsbD k = false ↔ x &&& BitVec.twoPow w k = 0#w := by
    simpa using getLsbD_eq_iff_and_twoPow hk x 0#w
  rw [Bool.eq_iff_iff, decide_eq_true_iff, ne_eq, ← hzero, Bool.not_eq_false]

theorem decide_or_ne_zero {w : Nat} (x y : BitVec w) :
    decide (x ||| y ≠ 0#w) = (decide (x ≠ 0#w) || decide (y ≠ 0#w)) := by
  rw [← Bool.decide_or, decide_eq_decide, ne_eq, BitVec.or_eq_zero_iff, not_and_or]

theorem faultD16Of_eq_mask (b1 : Byte) : faultD16Of b1 = decide (b1 &&& 0x01#8 ≠ 0#8) :=
  getLsbD_eq_decide_and_twoPow (k := 0) (by decide) b1

theorem scvOf_eq_mask (b3 : Byte) : scvOf b3 = decide (b3 &&& 0x04#8 ≠ 0#8) :=
  getLsbD_eq_decide_and_twoPow (k := 2) (by decide) b3

theorem scgOf_eq_mask (b3 : Byte) : scgOf b3 = decide (b3 &&& 0x02#8 ≠ 0#8) :=
  getLsbD_eq_decide_and_twoPow (k := 1) (by decide) b3

theorem ocOf_eq_mask (b3 : Byte) : ocOf b3 = decide (b3 &&& 0x01#8 ≠ 0#8) :=
  getLsbD_eq_decide_and_twoPow (k := 0) (by decide) b3

/-- R78: the mask of FAULT is the union of the masks of its three bits. -/
theorem faultOf_eq_mask (b3 : Byte) : faultOf b3 = decide (b3 &&& 0x07#8 ≠ 0#8) := by
  have hmask : (0x07#8 : Byte) = 0x04#8 ||| 0x02#8 ||| 0x01#8 := by decide
  rw [faultOf, scvOf_eq_mask, scgOf_eq_mask, ocOf_eq_mask, hmask, BitVec.and_or_distrib_left,
    BitVec.and_or_distrib_left, decide_or_ne_zero, decide_or_ne_zero]

theorem sensorFaultOf_eq_mask (b1 b3 : Byte) :
    sensorFaultOf b1 b3 = decide ((b1 &&& 0x01#8) ||| (b3 &&& 0x07#8) ≠ 0#8) := by
  rw [sensorFaultOf, faultD16Of_eq_mask, faultOf_eq_mask, decide_or_ne_zero]

/-- Settles O22: the answer of each operation is its bit, and the bit is its mask. -/
theorem wireFaultBitsByMask : Obligations.WireFaultBitsByMask := by
  intro s hcnt
  rw [← faultD16Of_eq_mask, ← scvOf_eq_mask, ← scgOf_eq_mask, ← ocOf_eq_mask]
  exact ⟨exec_frameOp_of_complete .fd16 hcnt, exec_frameOp_of_complete .scv hcnt, exec_frameOp_of_complete .scg hcnt,
    exec_frameOp_of_complete .oc hcnt⟩

/-- Settles O23: the same of the two derived flags. -/
theorem derivedFaultFlagsByMask : Obligations.DerivedFaultFlagsByMask := by
  intro s hcnt
  rw [← faultOf_eq_mask, ← sensorFaultOf_eq_mask]
  exact ⟨exec_frameOp_of_complete .fault hcnt, exec_frameOp_of_complete .sfault hcnt⟩

/-! ### Consistent and inconsistent frames -/

theorem consistentFrame_iff (b : FrameBuf) : consistentFrame b = true ↔ faultD16Of b.b1 = faultOf b.b3 :=
  beq_iff_eq

/-- An inconsistent frame: D16 and the OR of the three specific bits are each other's opposite. -/
theorem not_consistentFrame_iff (b : FrameBuf) : consistentFrame b = false ↔ faultOf b.b3 = !faultD16Of b.b1 := by
  rw [← Bool.not_eq_true, consistentFrame_iff]
  cases faultD16Of b.b1 <;> cases faultOf b.b3 <;> decide

theorem faultOf_eq_word_bits (b : FrameBuf) :
    faultOf b.b3 = (b.word.getLsbD 2 || b.word.getLsbD 1 || b.word.getLsbD 0) := by
  rw [faultOf, scvOf_eq_getLsbD_word, scgOf_eq_getLsbD_word, ocOf_eq_getLsbD_word]

/-- Settles O34: `fault` is the OR of the three bits, and `sensor_fault` the OR of it with D16, which on an inconsistent
frame is its opposite. -/
theorem faultFlagsAgreeOnConsistentFrames : Obligations.FaultFlagsAgreeOnConsistentFrames := by
  intro b
  rw [← faultOf_eq_word_bits, ← faultD16Of_eq_getLsbD_word]
  refine ⟨?_, consistentFrame_iff b, fun h => ?_, fun h hd16 => ?_, fun h hd16 => ?_⟩
  · simp [decodeFrame, faultOf, or_assoc]
  · rw [consistentFrame_iff] at h
    simp [decodeFrame, sensorFaultOf, h]
  · rw [not_consistentFrame_iff, hd16] at h
    simp [decodeFrame, sensorFaultOf, h, hd16]
  · rw [not_consistentFrame_iff, hd16] at h
    simp [decodeFrame, sensorFaultOf, h, hd16]

/-! ### What a consumer observes -/

/-- R23: with no complete frame an observation leaves no value with the host. -/
theorem exec_frameOp_of_incomplete (op : FrameOp) {s : State} (h : s.cnt.val < 4) :
    exec (decodeFrameOp op) s = .next { s with lastRead := none } := by
  rw [exec_frameOp_eq, State.observe, s.not_valid_iff.mpr h, if_neg Bool.false_ne_true]

/-- Settles O25: the result and the observations in the two cases of `valid`; the pins do not ask for it. -/
theorem noResultWithoutCompleteFrame : Obligations.NoResultWithoutCompleteFrame := by
  refine ⟨fun s hcnt => State.result_of_valid (s.valid_iff.mpr hcnt), fun s hlt =>
    ⟨State.result_of_not_valid (s.not_valid_iff.mpr hlt), fun op => exec_frameOp_of_incomplete op hlt⟩,
    fun s outW hw => ?_⟩
  have htc : 14 ≤ outW := of_decide_eq_true hw
  exact ⟨toInt_tcPortAt htc s.buf, toInt_intPortAt (by omega) s.buf, rfl, rfl, rfl, rfl, rfl, rfl⟩

end Sys2Proof.Machine
end
